-- ==== Sys2Proof/Word.lean ====
section
/-! DEFINITION. The machine word. A cell (a program cell, a stack element, a memory slot, an output value) is a
mathematical integer, `Int`, in the range that the width gives; the spec never treats one as bits (00_scope.md R7).
`isCell` says the range (log entry 5). -/

namespace Sys2Proof

/-- `INT_MIN = -2^(W-1)` (00_scope.md R7). -/
def intMin (w : Nat) : Int := -((2 ^ (w - 1) : Nat) : Int)

/-- `INT_MAX = 2^(W-1) - 1` (00_scope.md R7). -/
def intMax (w : Nat) : Int := ((2 ^ (w - 1) : Nat) : Int) - 1

/-- `v` is a cell of width `w` (00_scope.md R7). -/
abbrev isCell (w : Nat) (v : Int) : Prop := intMin w ≤ v ∧ v ≤ intMax w

end Sys2Proof
end

