-- ==== Sys2Proof/Config.lean ====
section
/-! DEFINITION. The implementation parameters of the core (00_scope.md R5), as plain data. The reference
values stand in Machine/Reference.lean. -/

namespace Sys2Proof

/-- The 19 mnemonics of the closed instruction set, in the table's order (30_encoding.md R74). -/
inductive Mnemonic where
  | push | pop | add | sub | mul | div | dup | swap | print | jmp | jz | jnz
  | eq | lt | gt | alloc | load | store | halt
deriving DecidableEq, Repr

/-- Every mnemonic, in the table's order. -/
def Mnemonic.all : List Mnemonic :=
  [.push, .pop, .add, .sub, .mul, .div, .dup, .swap, .print, .jmp, .jz, .jnz,
   .eq, .lt, .gt, .alloc, .load, .store, .halt]

/-- The parameter `OPC`: an opcode number for each mnemonic (00_scope.md R5, 30_encoding.md R74). -/
structure OpcodeMap where
  push : Int
  pop : Int
  add : Int
  sub : Int
  mul : Int
  div : Int
  dup : Int
  swap : Int
  print : Int
  jmp : Int
  jz : Int
  jnz : Int
  eq : Int
  lt : Int
  gt : Int
  alloc : Int
  load : Int
  store : Int
  halt : Int
deriving DecidableEq, Repr

/-- `OPC(m)` (30_encoding.md R74). -/
def OpcodeMap.number (o : OpcodeMap) : Mnemonic → Int
  | .push => o.push
  | .pop => o.pop
  | .add => o.add
  | .sub => o.sub
  | .mul => o.mul
  | .div => o.div
  | .dup => o.dup
  | .swap => o.swap
  | .print => o.print
  | .jmp => o.jmp
  | .jz => o.jz
  | .jnz => o.jnz
  | .eq => o.eq
  | .lt => o.lt
  | .gt => o.gt
  | .alloc => o.alloc
  | .load => o.load
  | .store => o.store
  | .halt => o.halt

/-- The parameter `UNALLOC_POLICY` (00_scope.md R5, 46_varmem.md R158). -/
inductive UnallocPolicy where
  | fault
  | zero
deriving DecidableEq, Repr

/-- The configuration of a build (00_scope.md R5). `PLEN` is the length of the program, an input of each run,
and `STEP_LIMIT` has no legal value but "absent", so neither is a field. -/
structure Config where
  /-- `W`, the width of a cell in bits. -/
  width : Nat
  /-- `STACK_CAP`, the capacity of the operand stack in cells. -/
  stackCap : Nat
  /-- `MEM_SIZE`, the number of slots of variable memory. -/
  memSize : Nat
  /-- `OPC`, the opcode numbers. -/
  opc : OpcodeMap
  /-- `UNALLOC_POLICY`, what a use of an unallocated slot does. -/
  unallocPolicy : UnallocPolicy
deriving DecidableEq, Repr

/-- `OPC` is injective (00_scope.md R5). -/
abbrev OpcodeMap.Injective (o : OpcodeMap) : Prop :=
  ∀ m ∈ Mnemonic.all, ∀ m' ∈ Mnemonic.all, o.number m = o.number m' → m = m'

/-- The legal values of the parameters (00_scope.md R5): `W >= 6`, `STACK_CAP >= 1`, `MEM_SIZE >= 0`, `OPC` an
injective map into cell values, either policy. -/
abbrev Config.Legal (c : Config) : Prop :=
  6 ≤ c.width ∧ 1 ≤ c.stackCap ∧ (∀ m ∈ Mnemonic.all, isCell c.width (c.opc.number m)) ∧ c.opc.Injective

/-- A legal program: every cell a cell value and `PLEN <= INT_MAX` (00_scope.md R5, 70_reset_and_hazards.md R204). -/
abbrev Config.LegalProgram (c : Config) (p : List Int) : Prop :=
  (∀ v ∈ p, isCell c.width v) ∧ (p.length : Int) ≤ intMax c.width

end Sys2Proof
end

