-- ==== Sys2Proof/Machine/Reference.lean ====
section
/-! DEFINITION. The reference configuration (00_scope.md R6). Its numbers are the spec's own choices, none of
them in its source (92_eei_decisions.md D1, D2, D4, D5, D7); every rule holds for every legal configuration. -/

namespace Sys2Proof.Machine

/-- The reference `OPC`: 0 to 18 in the table's order (30_encoding.md R74; UNVERIFIED, log entry 3). -/
def referenceOpcodes : OpcodeMap where
  push := 0
  pop := 1
  add := 2
  sub := 3
  mul := 4
  div := 5
  dup := 6
  swap := 7
  print := 8
  jmp := 9
  jz := 10
  jnz := 11
  eq := 12
  lt := 13
  gt := 14
  alloc := 15
  load := 16
  store := 17
  halt := 18

/-- The reference configuration (00_scope.md R6; UNVERIFIED, log entry 4). -/
def referenceConfig : Config where
  width := 32
  stackCap := 256
  memSize := 256
  opc := referenceOpcodes
  unallocPolicy := .fault

end Sys2Proof.Machine
end

