-- ==== Sys2Proof/Syntax.lean ====
section
/-! DEFINITION. The instructions: one constructor for each row of spec/opcode_table.json, a format-O
instruction carrying its inline operand cell (30_encoding.md R71, R72, R74). -/

namespace Sys2Proof

/-- An instruction of the closed set of 19 (30_encoding.md R74), in the table's order. -/
inductive Instr where
  /-- PUSH, the literal to push (41_stack.md R110). -/
  | push (v : Int)
  /-- POP (41_stack.md R111). -/
  | pop
  /-- ADD (42_arithmetic.md R122). -/
  | add
  /-- SUB (42_arithmetic.md R123). -/
  | sub
  /-- MUL (42_arithmetic.md R124). -/
  | mul
  /-- DIV (42_arithmetic.md R125). -/
  | div
  /-- DUP (41_stack.md R112). -/
  | dup
  /-- SWAP (41_stack.md R113). -/
  | swap
  /-- PRINT (43_output.md R135). -/
  | print
  /-- JMP, the target's cell index (44_control.md R140). -/
  | jmp (t : Int)
  /-- JZ, the target's cell index (44_control.md R141). -/
  | jz (t : Int)
  /-- JNZ, the target's cell index (44_control.md R142). -/
  | jnz (t : Int)
  /-- EQ (45_compare.md R150). -/
  | eq
  /-- LT (45_compare.md R151). -/
  | lt
  /-- GT (45_compare.md R152). -/
  | gt
  /-- ALLOC, the slot index (46_varmem.md R155). -/
  | alloc (i : Int)
  /-- LOAD, the slot index (46_varmem.md R156). -/
  | load (i : Int)
  /-- STORE, the slot index (46_varmem.md R157). -/
  | store (i : Int)
  /-- HALT (47_halt.md R165). -/
  | halt
deriving DecidableEq, Repr

end Sys2Proof
end

