-- ==== Sys2Proof/WellFormed.lean ====
section
/-! DEFINITION. Which instructions can be written in cells: the operand of a format-O instruction is any cell
value, and nothing else (30_encoding.md R72, R76). -/

namespace Sys2Proof

/-- The inline operand of a format-O instruction; format S has none (30_encoding.md R71). -/
def Instr.operand? : Instr → Option Int
  | .push v => some v
  | .jmp t => some t
  | .jz t => some t
  | .jnz t => some t
  | .alloc i => some i
  | .load i => some i
  | .store i => some i
  | .pop => none
  | .add => none
  | .sub => none
  | .mul => none
  | .div => none
  | .dup => none
  | .swap => none
  | .print => none
  | .eq => none
  | .lt => none
  | .gt => none
  | .halt => none

/-- An instruction is well formed iff its operand, when it has one, is a cell of the configured width: an
operand cell has no illegal value as an encoding (30_encoding.md R76). -/
abbrev Instr.WellFormed (c : Config) (i : Instr) : Prop := ∀ v ∈ i.operand?, isCell c.width v

end Sys2Proof
end

