-- ==== Sys2Proof/Decode.lean ====
section
/-! DEFINITION. Cells to instructions and back (30_encoding.md R70 to R81). Decoding is total on any cells and
rejects by name; the encoder follows it. The bit helpers of 00_scope.md R8 stand first: only the opcode table's
words and `wrap` use them. -/

namespace Sys2Proof

/-- `zext_N(v)`: the low `n` bits of `v` as an unsigned number (00_scope.md R8). -/
def zextBits (n v : Nat) : Nat := v % 2 ^ n

/-- `sext_N(v)`: the low `n` bits of `v` as an `n`-bit two's complement number (00_scope.md R8). -/
def sextBits (n v : Nat) : Int :=
  if zextBits n v < 2 ^ (n - 1) then (zextBits n v : Int) else (zextBits n v : Int) - ((2 ^ n : Nat) : Int)

/-- The two's complement bit pattern of a cell of width `w`, as a number (00_scope.md R7). -/
def bitsOfCell (w : Nat) (v : Int) : Nat := (v % ((2 ^ w : Nat) : Int)).toNat

/-- The mnemonic whose opcode number is the whole cell `v`, if any; nothing is masked (30_encoding.md R73). -/
def OpcodeMap.mnemonicOf (o : OpcodeMap) (v : Int) : Option Mnemonic :=
  Mnemonic.all.find? fun m => o.number m = v

/-- The format of an opcode (30_encoding.md R71, R74): `simple` for format S, one cell, and `withOperand` for
format O, two cells, with the instruction that its operand makes. -/
inductive Form where
  | simple (i : Instr)
  | withOperand (mk : Int → Instr)

/-- The format and the instruction of each mnemonic (30_encoding.md R74). -/
def Mnemonic.form : Mnemonic → Form
  | .push => .withOperand .push
  | .pop => .simple .pop
  | .add => .simple .add
  | .sub => .simple .sub
  | .mul => .simple .mul
  | .div => .simple .div
  | .dup => .simple .dup
  | .swap => .simple .swap
  | .print => .simple .print
  | .jmp => .withOperand .jmp
  | .jz => .withOperand .jz
  | .jnz => .withOperand .jnz
  | .eq => .simple .eq
  | .lt => .simple .lt
  | .gt => .simple .gt
  | .alloc => .withOperand .alloc
  | .load => .withOperand .load
  | .store => .withOperand .store
  | .halt => .simple .halt

/-- The number of cells of an instruction with this opcode (30_encoding.md R74, column "cells"). -/
def Mnemonic.cells : Mnemonic → Nat
  | .push | .jmp | .jz | .jnz | .alloc | .load | .store => 2
  | .pop | .add | .sub | .mul | .div | .dup | .swap | .print | .eq | .lt | .gt | .halt => 1

/-- Why cells decode to no instruction. -/
inductive DecodeError where
  /-- There is no cell to decode: the end of the program (40_execution_loop.md R91). -/
  | noCell
  /-- The cell is no opcode number (30_encoding.md R76). -/
  | unknownOpcode (v : Int)
  /-- A format-O opcode is the last cell: its operand lies outside the program (30_encoding.md R72). -/
  | missingOperand (m : Mnemonic)
deriving DecidableEq, Repr

/-- What decoding answers: an instruction with the cells after it, or a rejection. -/
inductive Decoded where
  | instr (i : Instr) (rest : List Int)
  | rejected (e : DecodeError)
deriving DecidableEq, Repr

/-- The operand stage: a format-O instruction takes the next cell whole (30_encoding.md R72). -/
def decodeOperand (m : Mnemonic) (rest : List Int) : Decoded :=
  match m.form, rest with
  | .simple i, rest => .instr i rest
  | .withOperand mk, v :: rest' => .instr (mk v) rest'
  | .withOperand _, [] => .rejected (.missingOperand m)

/-- Decode the instruction at the front of a list of cells (30_encoding.md R73, R75). -/
def decode (c : Config) : List Int → Decoded
  | [] => .rejected .noCell
  | v :: rest =>
    match c.opc.mnemonicOf v with
    | none => .rejected (.unknownOpcode v)
    | some m => decodeOperand m rest

/-- The mnemonic of an instruction. -/
def Instr.mnemonic : Instr → Mnemonic
  | .push _ => .push
  | .pop => .pop
  | .add => .add
  | .sub => .sub
  | .mul => .mul
  | .div => .div
  | .dup => .dup
  | .swap => .swap
  | .print => .print
  | .jmp _ => .jmp
  | .jz _ => .jz
  | .jnz _ => .jnz
  | .eq => .eq
  | .lt => .lt
  | .gt => .gt
  | .alloc _ => .alloc
  | .load _ => .load
  | .store _ => .store
  | .halt => .halt

/-- The cells of an instruction: its opcode number, then its operand if it has one (30_encoding.md R71, R80). -/
def encode (c : Config) (i : Instr) : List Int :=
  c.opc.number i.mnemonic :: i.operand?.toList

/-- The cells of a program: its instructions' cells in order (30_encoding.md R80). -/
def encodeProgram (c : Config) (is : List Instr) : List Int := is.flatMap (encode c)

/-- Walk a program from its first cell in sequence and list its instructions (30_encoding.md R75); none when a
cell on the way decodes to nothing. `fuel` bounds the number of instructions. -/
def walkProgram (c : Config) : Nat → List Int → Option (List Instr)
  | 0, [] => some []
  | 0, _ :: _ => none
  | fuel + 1, cells =>
    match decode c cells with
    | .instr i rest => (walkProgram c fuel rest).map (i :: ·)
    | .rejected .noCell => some []
    | .rejected _ => none

/-- The sequential reading of a whole program (30_encoding.md R75). -/
def decodeProgram (c : Config) (cells : List Int) : Option (List Instr) := walkProgram c cells.length cells

/-- A word of spec/opcode_table.json as two cells of the reference width: bits 31..0 are the first cell, bits
63..32 the second, every bit from `nbits` up being 0. The second cell's place is the model's choice (DESIGN CHOICE,
log entry 21): 30_encoding.md R81 says how the table gives the first cell. -/
def tableCells (nbits w : Nat) : List Int :=
  let bits := zextBits nbits w
  [sextBits Machine.referenceConfig.width bits,
   sextBits Machine.referenceConfig.width (bits >>> Machine.referenceConfig.width)]

/-- The instruction that the decoder reads from a word of spec/opcode_table.json (30_encoding.md R81; log entry
21). -/
def decodeTableWord (nbits w : Nat) : Option Instr :=
  match decode Machine.referenceConfig (tableCells nbits w) with
  | .instr i _ => some i
  | .rejected _ => none

/-- An instruction as a word numbered as spec/opcode_table.json numbers it: the opcode cell's bit pattern in
bits 31..0 (30_encoding.md R81), the operand's (zero when there is none) above it (DESIGN CHOICE, log entry 21). -/
def encodeTableWord (i : Instr) : Nat :=
  bitsOfCell Machine.referenceConfig.width (Machine.referenceConfig.opc.number i.mnemonic) +
    bitsOfCell Machine.referenceConfig.width (i.operand?.getD 0) * 2 ^ Machine.referenceConfig.width

end Sys2Proof
end

