-- ==== Sys2Proof/Machine/State.lean ====
section
/-! DEFINITION. The state of the core as plain data (10_state.md R20 to R36), the reasons a step can stop, and
the state after reset (10_state.md R34). -/

namespace Sys2Proof.Machine

/-- The run status (10_state.md R28). -/
inductive Status where
  | running
  | halted
  | faulted
deriving DecidableEq, Repr

/-- The fault kinds that `ferr` can hold beside None (10_state.md R29, 60_exceptions.md R170). A fault of the
core is a NEXT state of the model, whose `status` is Faulted (40_execution_loop.md R95). -/
inductive FaultKind where
  /-- 60_exceptions.md R171. -/
  | stackUnderflow
  /-- 60_exceptions.md R172. -/
  | stackOverflow
  /-- 60_exceptions.md R173. -/
  | memoryIndexOutOfRange
  /-- 60_exceptions.md R174. -/
  | divisionByZero
  /-- 60_exceptions.md R175. -/
  | unknownInstruction
  /-- 60_exceptions.md R176. -/
  | programBoundsError
  /-- 60_exceptions.md R177. -/
  | unallocatedSlot
deriving DecidableEq, Repr

/-- Why the MODEL stops. These are not the core's faults: those are the `FaultKind`s above. -/
inductive Fault where
  /-- Raised by `step` when `status` is Halted or Faulted, where the core has no step (40_execution_loop.md R98).
  Safe: nothing is claimed to happen there. -/
  | coreStopped
  /-- Raised by LOAD of a slot that is flagged allocated and holds no value, under `UNALLOC_POLICY = fault`. No
  state that meets `State.Inv` is like that (10_state.md R35 (e)). Safe: the model stops (log entry 10). -/
  | slotHoldsNoValue
deriving DecidableEq, Repr

/-- Why the model gives an instruction no meaning. -/
inductive Refusal where
  /-- An instruction without a meaning, by its mnemonic. No arm of `exec` answers it: every instruction has its
  meaning. Safe. -/
  | notModelled (mnemonic : String)
deriving DecidableEq, Repr

/-- Variable memory: the slots that hold a value other than the one an unlisted slot reads as, by rising index
(log entry 7). The unit is the cell, which has no bytes (20_memory.md R51). -/
abbrev Memory := List (Nat × Int)

/-- What a slot that memory does not list reads as: no value with `UNALLOC_POLICY = fault`, and 0 with
`UNALLOC_POLICY = zero` (10_state.md R34, 46_varmem.md R158). -/
def unlistedSlot : UnallocPolicy → Option Int
  | .fault => none
  | .zero => some 0

/-- The canonical form of a memory: indices strictly rising, no entry equal to what an unlisted slot reads as. -/
abbrev Memory.wf (unlisted : Option Int) (m : Memory) : Prop :=
  (m.map Prod.fst).Pairwise (· < ·) ∧ ∀ e ∈ m, some e.2 ≠ unlisted

/-- The state of the core (10_state.md, section 1), with the two inputs that the step needs beside it, the
configuration and the program, which no step changes (log entries 1 and 2). -/
structure State where
  /-- The configuration of the build, constant (00_scope.md R5). -/
  cfg : Config
  /-- The program store `prog[0 .. PLEN-1]`, constant during a run (10_state.md R33). -/
  prog : List Int
  /-- The live cells of the operand stack, top first: the head is `stk[sp-1]` (10_state.md R21). -/
  stk : List Int
  /-- Variable memory (10_state.md R26). -/
  mem : Memory
  /-- The slots whose allocation flag is 1, rising (10_state.md R27). -/
  alloc : List Nat
  /-- The instruction pointer (10_state.md R24). -/
  ip : Nat
  /-- The run status (10_state.md R28). -/
  status : Status
  /-- The fault kind, `none` for the spec's None (10_state.md R29). -/
  ferr : Option FaultKind
  /-- The output sequence, oldest first (10_state.md R30). -/
  out : List Int
deriving DecidableEq, Repr

/-- The start of a run of program `p` in configuration `c` (10_state.md R34, 70_reset_and_hazards.md R200). -/
def State.initial (c : Config) (p : List Int) : State where
  cfg := c
  prog := p
  stk := []
  mem := []
  alloc := []
  ip := 0
  status := .running
  ferr := none
  out := []

/-- The machine right after reset, in the reference configuration, before any program is supplied (10_state.md
R34; log entries 2 and 4). -/
def State.reset : State := State.initial referenceConfig []

end Sys2Proof.Machine
end

