-- ==== Sys2Proof/Machine/Ops.lean ====
section
/-! DEFINITION. The named operations over the state: reading and writing memory and flags, moving `ip`, taking a
fault, and ending a run (00_scope.md R8). -/

namespace Sys2Proof.Machine

/-- What a meaning answers. -/
abbrev Result := Host.Outcome State Fault Refusal

/-- `PLEN`, the length of the program (10_state.md R33). -/
def State.plen (s : State) : Nat := s.prog.length

/-- `sp`, the count of live stack cells (10_state.md R22). -/
def State.sp (s : State) : Nat := s.stk.length

/-- `stk[k]` in the spec's numbering, bottom first; no value at or above `sp` (10_state.md R21). -/
def State.stkAt (s : State) (k : Nat) : Option Int := s.stk.reverse[k]?

/-! Variable memory -/

/-- The listed value of slot `i`. -/
def Memory.lookup (i : Nat) : Memory → Option Int
  | [] => none
  | (j, v) :: rest => if j = i then some v else Memory.lookup i rest

/-- Put an entry before the first entry of a greater index. -/
def Memory.insert (i : Nat) (v : Int) : Memory → Memory
  | [] => [(i, v)]
  | (j, u) :: rest => if i < j then (i, v) :: (j, u) :: rest else (j, u) :: Memory.insert i v rest

/-- Memory with slot `i` unlisted. -/
def Memory.erase (i : Nat) (m : Memory) : Memory := m.filter fun e => e.1 ≠ i

/-- `mem[i] <- v` in canonical form: a value equal to what an unlisted slot reads as is not listed. -/
def Memory.write (unlisted : Option Int) (i : Nat) (v : Int) (m : Memory) : Memory :=
  if some v = unlisted then m.erase i else (m.erase i).insert i v

/-- `MemRead(i, 1)`: the value of slot `i`, none for a slot that holds no value (00_scope.md R8, 10_state.md R26). -/
def State.readSlot (s : State) (i : Nat) : Option Int :=
  match s.mem.lookup i with
  | some v => some v
  | none => unlistedSlot s.cfg.unallocPolicy

/-- `MemWrite(i, 1, v)` (00_scope.md R8). -/
def State.writeSlot (s : State) (i : Nat) (v : Int) : State :=
  { s with mem := s.mem.write (unlistedSlot s.cfg.unallocPolicy) i v }

/-- `alloc[i]` (10_state.md R27). -/
def State.allocFlag (s : State) (i : Nat) : Bool := s.alloc.contains i

/-- A rising list of slots with `i` put in its place. -/
def insertSlot (i : Nat) : List Nat → List Nat
  | [] => [i]
  | j :: rest => if i < j then i :: j :: rest else if i = j then j :: rest else j :: insertSlot i rest

/-- `alloc[i] <- 1` (10_state.md R27). -/
def State.setAlloc (s : State) (i : Nat) : State := { s with alloc := insertSlot i s.alloc }

/-! Stack, instruction pointer and output -/

/-- Write the live cells of the stack, top first; `sp` moves with them (10_state.md R21, R22). -/
def State.setStk (s : State) (cells : List Int) : State := { s with stk := cells }

/-- `ip <- t` (00_scope.md R8). -/
def State.setIp (s : State) (t : Nat) : State := { s with ip := t }

/-- `ip <- ip + n`, the sequential advance (10_state.md R25). -/
def State.advance (s : State) (n : Nat) : State := s.setIp (s.ip + n)

/-- `emit(v)` (00_scope.md R8). -/
def State.emit (s : State) (v : Int) : State := { s with out := s.out ++ [v] }

/-! Taking a fault, ending a run -/

/-- The state a fault leaves: `status <- Faulted`, `ferr <- K`, nothing else (40_execution_loop.md R95,
60_exceptions.md R182). There is no return from it but reset (60_exceptions.md R183), which is `hostReset`. -/
def State.faultedWith (s : State) (K : FaultKind) : State := { s with status := .faulted, ferr := some K }

/-- `raise K`: taking a fault, the one way in which any check of the core ends an instruction (00_scope.md R8). -/
def raise (K : FaultKind) (s : State) : Result := .next (s.faultedWith K)

/-- `status <- Halted`, by HALT and by the end of the program (47_halt.md R165, 40_execution_loop.md R91). -/
def State.halt (s : State) : State := { s with status := .halted }

end Sys2Proof.Machine
end

