-- ==== Sys2Proof/Machine/Operands.lean ====
section
/-! DEFINITION. The operand forms: the cells popped from the stack, the inline slot index and the inline jump
target, each with the check that guards it (00_scope.md R8, 40_execution_loop.md R96), and the integer laws of
the ALU. A check that fails raises its fault before anything is written. -/

namespace Sys2Proof.Machine

/-- `wrap(n) = sext_W(n mod 2^W)`, the cell congruent to `n` modulo `2^W` (00_scope.md R8, 42_arithmetic.md R121). -/
def wrap (w : Nat) (n : Int) : Int := sextBits w (bitsOfCell w n)

/-- `need(1)`, then the top and the cells below it. -/
def withTop (s : State) (k : Int → List Int → Result) : Result :=
  match s.stk with
  | v :: below => k v below
  | [] => raise .stackUnderflow s

/-- `need(2)`, then the first popped `a`, the second popped `b` and the cells below them (42_arithmetic.md R120). -/
def withTopTwo (s : State) (k : Int → Int → List Int → Result) : Result :=
  match s.stk with
  | a :: b :: below => k a b below
  | _ => raise .stackUnderflow s

/-- `room(1)`, then the push of `v` with `ip` moved past the instruction's `n` cells. -/
def pushAndAdvance (v : Int) (n : Nat) (s : State) : Result :=
  if s.sp + 1 > s.cfg.stackCap then raise .stackOverflow s
  else .next ((s.setStk (v :: s.stk)).advance n)

/-- `check_index(i)`, then the slot (20_memory.md R55). -/
def withSlot (i : Int) (s : State) (k : Nat → Result) : Result :=
  if i < 0 ∨ i ≥ s.cfg.memSize then raise .memoryIndexOutOfRange s else k i.toNat

/-- `check_alloc(i)`, then the rest (46_varmem.md R158). -/
def ifAllocated (i : Nat) (s : State) (r : Result) : Result :=
  if s.cfg.unallocPolicy = .fault ∧ s.allocFlag i = false then raise .unallocatedSlot s else r

/-- `check_target(t)`, then the jump of `s'`, the state with the operands popped (44_control.md R143). The check
and its fault are those of `s`, the state before the instruction. -/
def jumpTo (t : Int) (s s' : State) : Result :=
  if t < 0 ∨ t ≥ s.plen then raise .programBoundsError s else .next (s'.setIp t.toNat)

/-- The shape of every binary instruction: pop `a`, pop `b`, push `f a b` (42_arithmetic.md R120). -/
def binary (f : Int → Int → Int) (s : State) : Result :=
  withTopTwo s fun a b below => .next ((s.setStk (f a b :: below)).advance 1)

end Sys2Proof.Machine
end

