-- ==== Sys2Proof/Machine/Arithmetic.lean ====
section
/-! DEFINITION. The arithmetic instructions ADD, SUB, MUL, DIV (42_arithmetic.md). In each, `a` is the first
popped and `b` the second popped, and a result that is no cell wraps (R121; log entry 12). -/

namespace Sys2Proof.Machine

/-- ADD (42_arithmetic.md R122). -/
def execAdd (s : State) : Result := binary (fun a b => wrap s.cfg.width (a + b)) s

/-- SUB (42_arithmetic.md R123): second popped minus first popped. -/
def execSub (s : State) : Result := binary (fun a b => wrap s.cfg.width (b - a)) s

/-- MUL (42_arithmetic.md R124). -/
def execMul (s : State) : Result := binary (fun a b => wrap s.cfg.width (a * b)) s

/-- DIV (42_arithmetic.md R125): `1 / a`, truncated toward zero, times `b`. It is not `b / a`. -/
def execDiv (s : State) : Result :=
  withTopTwo s fun a b below =>
    if a = 0 then raise .divisionByZero s
    else .next ((s.setStk (wrap s.cfg.width (Int.tdiv 1 a * b) :: below)).advance 1)

end Sys2Proof.Machine
end

