-- ==== Sys2Proof/Machine/Flags.lean ====
section
/-! DEFINITION. The core has no status flags (10_state.md R31): a comparison's outcome is the cell 1 or the cell
0 on the stack, and a conditional jump tests a popped cell. These are those computations. -/

namespace Sys2Proof.Machine

/-- The outcome of a comparison as a cell (45_compare.md, opening). -/
def condCell (b : Bool) : Int := if b then 1 else 0

/-- EQ: `a = b` (45_compare.md R150). -/
def condEq (a b : Int) : Bool := a = b

/-- LT: `a > b`, the first popped above the second (45_compare.md R151). -/
def condLt (a b : Int) : Bool := a > b

/-- GT: `a < b`, the first popped below the second (45_compare.md R152). -/
def condGt (a b : Int) : Bool := a < b

/-- JZ is taken when the popped cell is 0 (44_control.md R141). -/
def takenJz (v : Int) : Bool := v = 0

/-- JNZ is taken when the popped cell is not 0 (44_control.md R142). -/
def takenJnz (v : Int) : Bool := v ≠ 0

end Sys2Proof.Machine
end

