-- ==== Sys2Proof/Machine/Compare.lean ====
section
/-! DEFINITION. The comparison instructions EQ, LT, GT (45_compare.md). -/

namespace Sys2Proof.Machine

/-- EQ (45_compare.md R150). -/
def execEq (s : State) : Result := binary (fun a b => condCell (condEq a b)) s

/-- LT (45_compare.md R151). -/
def execLt (s : State) : Result := binary (fun a b => condCell (condLt a b)) s

/-- GT (45_compare.md R152). -/
def execGt (s : State) : Result := binary (fun a b => condCell (condGt a b)) s

end Sys2Proof.Machine
end

