-- ==== Sys2Proof/Machine/Control.lean ====
section
/-! DEFINITION. The control-transfer instructions JMP, JZ, JNZ (44_control.md). -/

namespace Sys2Proof.Machine

/-- JMP (44_control.md R140). -/
def execJmp (t : Int) (s : State) : Result := jumpTo t s s

/-- A conditional jump: pop a cell; jump if it takes the branch, else pass the operand. The target is checked
only when the jump is taken (44_control.md R141 to R143). -/
def condJump (taken : Int → Bool) (t : Int) (s : State) : Result :=
  withTop s fun v below =>
    if taken v then jumpTo t s (s.setStk below) else .next ((s.setStk below).advance 2)

/-- JZ (44_control.md R141). -/
def execJz (t : Int) (s : State) : Result := condJump takenJz t s

/-- JNZ (44_control.md R142). -/
def execJnz (t : Int) (s : State) : Result := condJump takenJnz t s

end Sys2Proof.Machine
end

