-- ==== Sys2Proof/Machine/HaltOp.lean ====
section
/-! DEFINITION. HALT (47_halt.md). -/

namespace Sys2Proof.Machine

/-- HALT (47_halt.md R165): `ip` is not advanced (log entry 15). -/
def execHalt (s : State) : Result := .next s.halt

end Sys2Proof.Machine
end

