-- ==== Sys2Proof/Machine/Output.lean ====
section
/-! DEFINITION. The output instruction PRINT (43_output.md) and the text form of the output (10_state.md R30). -/

namespace Sys2Proof.Machine

/-- PRINT (43_output.md R135). -/
def execPrint (s : State) : Result :=
  withTop s fun v _ => .next ((s.emit v).advance 1)

/-- The base-ten digits of `n`, most significant first, put before `acc`; `fuel` bounds their number. -/
def digitsBefore : Nat → Nat → List Nat → List Nat
  | 0, _, acc => acc
  | fuel + 1, n, acc => if n < 10 then n :: acc else digitsBefore fuel (n / 10) (n % 10 :: acc)

/-- The base-ten digits of `n`, most significant first, without leading zeros, the single digit 0 for zero. -/
def decimalDigits (n : Nat) : List Nat := digitsBefore (n.log2 + 1) n []

/-- The byte of a digit's character, its ASCII code (PRESUMED, log entry 26). -/
def digitByte (d : Nat) : BitVec 8 := BitVec.ofNat 8 (0x30 + d)

/-- The text of one emitted cell: a minus sign if negative, the digits of its magnitude, one line feed
(10_state.md R30; log entry 20). R30 gives the line feed as the byte 0x0A; the byte 0x2D of the minus sign and
those of the digits are ASCII (PRESUMED, log entry 26). -/
def cellText (v : Int) : List (BitVec 8) :=
  (if v < 0 then [0x2D] else []) ++ (decimalDigits v.natAbs).map digitByte ++ [0x0A]

/-- The output as a host sees it in text, one value a line (10_state.md R30). -/
def State.outText (s : State) : List (BitVec 8) := s.out.flatMap cellText

end Sys2Proof.Machine
end

