-- ==== Sys2Proof/Machine/StackOps.lean ====
section
/-! DEFINITION. The stack instructions PUSH, POP, DUP, SWAP (41_stack.md). -/

namespace Sys2Proof.Machine

/-- PUSH (41_stack.md R110). -/
def execPush (v : Int) (s : State) : Result := pushAndAdvance v 2 s

/-- POP (41_stack.md R111). -/
def execPop (s : State) : Result :=
  withTop s fun _ below => .next ((s.setStk below).advance 1)

/-- DUP (41_stack.md R112). -/
def execDup (s : State) : Result :=
  withTop s fun v _ => pushAndAdvance v 1 s

/-- SWAP (41_stack.md R113). -/
def execSwap (s : State) : Result :=
  withTopTwo s fun a b below => .next ((s.setStk (b :: a :: below)).advance 1)

end Sys2Proof.Machine
end

