-- ==== Sys2Proof/Machine/VarMem.lean ====
section
/-! DEFINITION. The variable-memory instructions ALLOC, LOAD, STORE (46_varmem.md). -/

namespace Sys2Proof.Machine

/-- ALLOC (46_varmem.md R155). -/
def execAlloc (i : Int) (s : State) : Result :=
  withSlot i s fun n => .next (((s.writeSlot n 0).setAlloc n).advance 2)

/-- LOAD (46_varmem.md R156). The stop on a slot without a value is reached by no run (log entry 10). -/
def execLoad (i : Int) (s : State) : Result :=
  withSlot i s fun n =>
    ifAllocated n s
      (match s.readSlot n with
        | some v => pushAndAdvance v 2 s
        | none => .fault .slotHoldsNoValue)

/-- STORE (46_varmem.md R157). -/
def execStore (i : Int) (s : State) : Result :=
  withTop s fun v below =>
    withSlot i s fun n =>
      ifAllocated n s (.next (((s.writeSlot n v).setStk below).advance 2))

end Sys2Proof.Machine
end

