-- ==== Sys2Proof/Machine/Loop.lean ====
section
/-! DEFINITION. The fetch-decode-execute loop (40_execution_loop.md), and how the opcode table's words are placed
where it fetches. -/

namespace Sys2Proof.Machine

/-- Decode at `ip`: the opcode cell and, for format O, the cell after it (40_execution_loop.md R92, R93). -/
def fetch (s : State) : Decoded := decode s.cfg (s.prog.drop s.ip)

/-- A step that found no instruction: the end of the program is a clean stop and reads no cell (R91), an unknown
opcode and a missing operand are faults (R92, R93). -/
def fetchFailed (e : DecodeError) (s : State) : Result :=
  match e with
  | .noCell => .next s.halt
  | .unknownOpcode _ => raise .unknownInstruction s
  | .missingOperand _ => raise .programBoundsError s

/-- One step of a Running core (40_execution_loop.md R90). -/
def runningStep (s : State) : Result :=
  match fetch s with
  | .instr i _ => exec i s
  | .rejected e => fetchFailed e s

/-- One step: Halted and Faulted are terminal, and there the core has none (40_execution_loop.md R98). -/
def loopStep (s : State) : Result :=
  match s.status with
  | .running => runningStep s
  | .halted => .fault .coreStopped
  | .faulted => .fault .coreStopped

/-- `cells` written over `prog` from index `k` on, the program grown to hold them; a cell between the end of the
program and `k` is 0. -/
def placeCells (prog : List Int) (k : Nat) (cells : List Int) : List Int :=
  prog.take k ++ List.replicate (k - prog.length) 0 ++ cells ++ prog.drop (k + cells.length)

/-- The state whose next step runs the instruction of a word of spec/opcode_table.json: its cells at `ip`, the
core Running (log entry 21). The word is one of the reference configuration. -/
def placeTableWord (s : State) (nbits w : Nat) : State :=
  { s with prog := placeCells s.prog s.ip (tableCells nbits w), status := .running, ferr := none }

end Sys2Proof.Machine
end

