-- ==== Sys2Proof/Machine/HostPort.lean ====
section
/-! DEFINITION. What the host sees and does (10_state.md R28 to R32, 70_reset_and_hazards.md R200 to R204). -/

namespace Sys2Proof.Machine

/-- The numeric code of `status` (10_state.md R28). -/
def Status.code : Status → Nat
  | .running => 0
  | .halted => 1
  | .faulted => 2

/-- The numeric code of a fault kind (10_state.md R29). -/
def FaultKind.code : FaultKind → Nat
  | .stackUnderflow => 1
  | .stackOverflow => 2
  | .memoryIndexOutOfRange => 3
  | .divisionByZero => 4
  | .unknownInstruction => 5
  | .programBoundsError => 6
  | .unallocatedSlot => 7

/-- The numeric code of `ferr`, 0 for None (10_state.md R29). -/
def ferrCode : Option FaultKind → Nat
  | none => 0
  | some K => K.code

/-- The reset event with program `p` in place: a new run, nothing of the old one kept but the build's
configuration (70_reset_and_hazards.md R200, R203). It is the only way out of Halted and Faulted. -/
def hostReset (p : List Int) (s : State) : State := State.initial s.cfg p

/-- The successive values of the `prog_addr` port in the next step of a Running core (10_state.md R32): nothing
at the end of the program, `ip` for the opcode, then `ip + 1` for the operand of a format-O opcode inside the program. -/
def programReads (s : State) : List Nat :=
  match s.prog.drop s.ip with
  | [] => []
  | v :: rest =>
    match s.cfg.opc.mnemonicOf v with
    | none => [s.ip]
    | some m => if m.cells = 2 ∧ rest ≠ [] then [s.ip, s.ip + 1] else [s.ip]

/-- The `out_valid`, `out_data` events between two states of a run: the cells that the later one has emitted
beyond the earlier one (10_state.md R32). -/
def outEvents (s t : State) : List Int := t.out.drop s.out.length

end Sys2Proof.Machine
end

