-- ==== Sys2Proof/Machine/Step.lean ====
section
/-! DEFINITION. The step of the machine, and the placing of a word where it fetches. -/

namespace Sys2Proof.Machine

/-- One step (40_execution_loop.md R90, R98). -/
def step (s : State) : Host.Outcome State Fault Refusal := loopStep s

/-- The state in which a word of spec/opcode_table.json stands where `step` fetches (log entry 21). -/
def State.withFetchWord (s : State) (nbits w : Nat) : State := placeTableWord s nbits w

end Sys2Proof.Machine
end

