-- ==== Sys2Proof/Safety.lean ====
section
/-! DEFINITION. The terms in which the claims speak: the invariant of every run (10_state.md R35), the runs
themselves, the tables of 10_state.md, and the relation between the two allocation policies (46_varmem.md R158). -/

namespace Sys2Proof

/-- The slot an instruction stores to: its own operand, taken as ALLOC and STORE take it (20_memory.md R53, R54).
Every other instruction stores to none. -/
def Instr.storeSlot? : Instr → Option Nat
  | .alloc i => some i.toNat
  | .store i => some i.toNat
  | .push _ | .pop | .add | .sub | .mul | .div | .dup | .swap | .print | .jmp _ | .jz _ | .jnz _
  | .eq | .lt | .gt | .load _ | .halt => none

/-- The live cells an instruction needs (10_state.md R23, column "needs"). -/
def Mnemonic.stackNeed : Mnemonic → Nat
  | .push | .jmp | .alloc | .load | .halt => 0
  | .pop | .dup | .print | .jz | .jnz | .store => 1
  | .add | .sub | .mul | .div | .swap | .eq | .lt | .gt => 2

/-- The cells an instruction pops (10_state.md R23, column "pops"). -/
def Mnemonic.pops : Mnemonic → Nat
  | .push | .dup | .swap | .print | .jmp | .alloc | .load | .halt => 0
  | .pop | .jz | .jnz | .store => 1
  | .add | .sub | .mul | .div | .eq | .lt | .gt => 2

/-- The cells an instruction pushes (10_state.md R23, column "pushes"). -/
def Mnemonic.pushes : Mnemonic → Nat
  | .pop | .swap | .print | .jmp | .jz | .jnz | .alloc | .store | .halt => 0
  | .push | .add | .sub | .mul | .div | .dup | .eq | .lt | .gt | .load => 1

/-- The fault kinds an instruction can raise once it is decoded and its operand fetched (60_exceptions.md R178,
less the operand fetch's ProgramBoundsError). -/
def Mnemonic.faultKinds : Mnemonic → List Machine.FaultKind
  | .push => [.stackOverflow]
  | .pop => [.stackUnderflow]
  | .add => [.stackUnderflow]
  | .sub => [.stackUnderflow]
  | .mul => [.stackUnderflow]
  | .div => [.stackUnderflow, .divisionByZero]
  | .dup => [.stackUnderflow, .stackOverflow]
  | .swap => [.stackUnderflow]
  | .print => [.stackUnderflow]
  | .jmp => [.programBoundsError]
  | .jz => [.stackUnderflow, .programBoundsError]
  | .jnz => [.stackUnderflow, .programBoundsError]
  | .eq => [.stackUnderflow]
  | .lt => [.stackUnderflow]
  | .gt => [.stackUnderflow]
  | .alloc => [.memoryIndexOutOfRange]
  | .load => [.memoryIndexOutOfRange, .unallocatedSlot, .stackOverflow]
  | .store => [.stackUnderflow, .memoryIndexOutOfRange, .unallocatedSlot]
  | .halt => []

end Sys2Proof

namespace Sys2Proof.Machine

/-- What holds in every state of every run of a legal configuration and a legal program (10_state.md R35, with
the ranges of R21, R26 and R30 and the canonical forms of the model's own lists). -/
structure State.Inv (s : State) : Prop where
  /-- The configuration is legal (00_scope.md R5). -/
  legal : s.cfg.Legal
  /-- The program is legal (70_reset_and_hazards.md R204). -/
  program : s.cfg.LegalProgram s.prog
  /-- `sp <= STACK_CAP` (10_state.md R35 (a)). -/
  depth : s.sp ≤ s.cfg.stackCap
  /-- Every stack element is a cell (10_state.md R21). -/
  stkCells : ∀ v ∈ s.stk, isCell s.cfg.width v
  /-- Every slot that holds a value holds a cell (10_state.md R26). -/
  memCells : ∀ e ∈ s.mem, isCell s.cfg.width e.2
  /-- Only slots of the declared size hold values (10_state.md R26). -/
  memRange : ∀ e ∈ s.mem, e.1 < s.cfg.memSize
  /-- Memory keeps its canonical form. -/
  memForm : s.mem.wf (unlistedSlot s.cfg.unallocPolicy)
  /-- The flagged slots are listed in rising order. -/
  allocForm : s.alloc.Pairwise (· < ·)
  /-- Only slots of the declared size have a flag (10_state.md R27). -/
  allocRange : ∀ i ∈ s.alloc, i < s.cfg.memSize
  /-- `alloc[i] = 1` implies that `mem[i]` holds a value (10_state.md R35 (e)). -/
  allocHasValue : ∀ i ∈ s.alloc, s.readSlot i ≠ none
  /-- With `UNALLOC_POLICY = fault` only allocated slots hold a value (10_state.md R35 (f)). -/
  valueIsAllocated : s.cfg.unallocPolicy = .fault → ∀ e ∈ s.mem, e.1 ∈ s.alloc
  /-- Every emitted value is a cell (10_state.md R30). -/
  outCells : ∀ v ∈ s.out, isCell s.cfg.width v
  /-- `ip <= PLEN` (10_state.md R35 (b)). -/
  ipBound : s.ip ≤ s.plen
  /-- Faulted if and only if `ferr` holds a kind (10_state.md R35 (c)). -/
  faultedIff : s.status = .faulted ↔ s.ferr ≠ none
  /-- A fault leaves `ip` inside the program (10_state.md R35 (h)). -/
  faultedInside : s.status = .faulted → s.ip < s.plen
  /-- A clean stop is at the end of the program or at a HALT (10_state.md R28). -/
  haltedWhere : s.status = .halted → s.ip = s.plen ∨ s.prog[s.ip]? = some (s.cfg.opc.number .halt)

/-- The states of the run of program `p` in configuration `c` (40_execution_loop.md R98). -/
inductive Reachable (c : Config) (p : List Int) : State → Prop
  | start : Reachable c p (State.initial c p)
  | step {s t : State} : Reachable c p s → Sys2Proof.Machine.step s = .next t → Reachable c p t

/-- The core is Running and the next cell to decode is the opcode of `m`. -/
abbrev State.AtOpcode (s : State) (m : Mnemonic) : Prop :=
  s.status = .running ∧ s.prog[s.ip]? = some (s.cfg.opc.number m)

/-- The core is Running at a format-O opcode that is the last cell of the program (40_execution_loop.md R93). -/
abbrev State.OperandMissing (s : State) (m : Mnemonic) : Prop :=
  s.cfg.Legal ∧ s.AtOpcode m ∧ s.ip + 1 = s.plen

/-- The inline index names a slot of the declared size (20_memory.md R55). -/
abbrev State.ValidSlot (s : State) (i : Int) : Prop := 0 ≤ i ∧ i < s.cfg.memSize

/-- The inline target names a cell of the program (44_control.md R143). -/
abbrev State.ValidTarget (s : State) (t : Int) : Prop := 0 ≤ t ∧ t < s.plen

/-- The allocation policy lets LOAD and STORE use slot `n` (46_varmem.md R158). -/
abbrev State.Usable (s : State) (n : Nat) : Prop := s.cfg.unallocPolicy = .zero ∨ s.allocFlag n = true

/-- `z` is the state that the core built with `UNALLOC_POLICY = zero` is in where the one built with `fault` is in
`s`: the same but for the policy, with the same value in every allocated slot (46_varmem.md R158). -/
structure PolicyRelated (s z : State) : Prop where
  policy : s.cfg.unallocPolicy = .fault
  cfg : z.cfg = { s.cfg with unallocPolicy := .zero }
  prog : z.prog = s.prog
  stk : z.stk = s.stk
  alloc : z.alloc = s.alloc
  ip : z.ip = s.ip
  status : z.status = s.status
  ferr : z.ferr = s.ferr
  out : z.out = s.out
  mem : ∀ i ∈ s.alloc, z.readSlot i = s.readSlot i

end Sys2Proof.Machine
end

