-- ==== Sys2Proof/Certificates/Slice0/Obligations.lean ====
section
/-! DEFINITION. The statements for the provers. Each docstring names the rule of spec/ that it formalises. Three of
the spec's own decisions (92_eei_decisions.md) run through the statements of single instructions: the opcode numbers
are the reference `OPC`'s (D1, log entry 3), a fault writes `status` and `ferr` and nothing else (D10, log entry 14),
and a result that is no cell wraps (D3, log entry 12). -/

open Sys2Proof Sys2Proof.Machine

/-! Reset and configuration -/

/-- R34: the state at the start of every run, for every configuration and program; no slot holds a value with
`UNALLOC_POLICY = fault`, every slot holds 0 with `zero`. -/
def Obligations.RunStartsFresh : Prop :=
  ∀ (c : Config) (p : List Int) (s : State), s = State.initial c p →
    s.cfg = c ∧ s.prog = p ∧ s.status = .running ∧ s.ip = 0 ∧ s.sp = 0 ∧ s.ferr = none ∧ s.out = [] ∧
      (∀ i, s.allocFlag i = false) ∧ (∀ k, s.stkAt k = none) ∧
      (c.unallocPolicy = .fault → ∀ i, s.readSlot i = none) ∧
      (c.unallocPolicy = .zero → ∀ i, s.readSlot i = some 0)

/-- R34, R6: `State.reset` is that state in the reference configuration with no program supplied. The reference
numbers are the spec's own choices (log entries 3 and 4), and the empty program is the model's (log entry 2). -/
def Obligations.ResetIsReferenceRunStart : Prop :=
  State.reset = State.initial referenceConfig [] ∧ referenceConfig.Legal ∧ referenceConfig.width = 32 ∧
    referenceConfig.stackCap = 256 ∧ referenceConfig.memSize = 256 ∧ referenceConfig.unallocPolicy = .fault ∧
    Mnemonic.all.map referenceConfig.opc.number = (List.range 19).map (fun n : Nat => (n : Int))

/-- R200: reset from any state keeps nothing of the run but the build's configuration. -/
def Obligations.HostResetForgetsTheRun : Prop :=
  ∀ (p : List Int) (s s' : State), s.cfg = s'.cfg →
    hostReset p s = hostReset p s' ∧ hostReset p s = State.initial s.cfg p ∧ (hostReset p s).status = .running

/-! Words and bits -/

/-- R8: `wrap(n)` is the unique cell congruent to `n` modulo `2^W`. -/
def Obligations.WrapIsTheUniqueCongruentCell : Prop :=
  ∀ w : Nat, 1 ≤ w → ∀ n : Int,
    isCell w (wrap w n) ∧ wrap w n % ((2 ^ w : Nat) : Int) = n % ((2 ^ w : Nat) : Int) ∧
      (∀ v : Int, isCell w v → v % ((2 ^ w : Nat) : Int) = n % ((2 ^ w : Nat) : Int) → v = wrap w n) ∧
      wrap w (intMax w + 1) = intMin w

/-- R121: the two spellings of SUB, `b - a` and `-a + b`, are the same function under `wrap`, and the listed
overflow consequences hold. -/
def Obligations.WrappedSubtractionSpellingsAgree : Prop :=
  ∀ w : Nat, 1 ≤ w → ∀ a b : Int,
    wrap w (b - a) = wrap w (wrap w (-a) + b) ∧ wrap w (intMin w - 1) = intMax w ∧
      wrap w (0 - intMin w) = intMin w ∧ wrap w (intMin w * -1) = intMin w

/-! The stack instructions -/

/-- R110. -/
def Obligations.PushPushesItsOperand : Prop :=
  (∀ v : Int, encode referenceConfig (.push v) = [0, v]) ∧
  (∀ s : State, s.OperandMissing .push →
    step s = .next { s with status := .faulted, ferr := some .programBoundsError }) ∧
  ∀ (s : State) (v : Int),
    (s.cfg.stackCap ≤ s.sp → exec (.push v) s = .next { s with status := .faulted, ferr := some .stackOverflow }) ∧
    (s.sp < s.cfg.stackCap → exec (.push v) s = .next { s with stk := v :: s.stk, ip := s.ip + 2 })

/-- R111. -/
def Obligations.PopRemovesTheTop : Prop :=
  encode referenceConfig .pop = [1] ∧
  ∀ s : State,
    (s.stk = [] → exec .pop s = .next { s with status := .faulted, ferr := some .stackUnderflow }) ∧
    ∀ v below, s.stk = v :: below → exec .pop s = .next { s with stk := below, ip := s.ip + 1 }

/-- R112. -/
def Obligations.DupCopiesTheTop : Prop :=
  encode referenceConfig .dup = [6] ∧
  ∀ s : State,
    (s.stk = [] → exec .dup s = .next { s with status := .faulted, ferr := some .stackUnderflow }) ∧
    ∀ v below, s.stk = v :: below →
      (s.cfg.stackCap ≤ s.sp → exec .dup s = .next { s with status := .faulted, ferr := some .stackOverflow }) ∧
      (s.sp < s.cfg.stackCap → exec .dup s = .next { s with stk := v :: v :: below, ip := s.ip + 1 })

/-- R113, with its corner case that SWAP twice restores the stack. -/
def Obligations.SwapExchangesTheTopTwo : Prop :=
  encode referenceConfig .swap = [7] ∧
  ∀ s : State,
    (s.sp < 2 → exec .swap s = .next { s with status := .faulted, ferr := some .stackUnderflow }) ∧
    ∀ a b below, s.stk = a :: b :: below →
      exec .swap s = .next { s with stk := b :: a :: below, ip := s.ip + 1 } ∧
      exec .swap { s with stk := b :: a :: below, ip := s.ip + 1 } = .next { s with ip := s.ip + 2 }

/-! The arithmetic instructions -/

/-- R122 (the wrap is decision D3, log entry 12). -/
def Obligations.AddPushesTheWrappedSum : Prop :=
  encode referenceConfig .add = [2] ∧
  ∀ s : State,
    (s.sp < 2 → exec .add s = .next { s with status := .faulted, ferr := some .stackUnderflow }) ∧
    ∀ a b below, s.stk = a :: b :: below →
      exec .add s = .next { s with stk := wrap s.cfg.width (a + b) :: below, ip := s.ip + 1 } ∧
      exec .add { s with stk := b :: a :: below } = exec .add s

/-- R123 (the wrap is decision D3, log entry 12). -/
def Obligations.SubSubtractsTheFirstPopped : Prop :=
  encode referenceConfig .sub = [3] ∧
  ∀ s : State,
    (s.sp < 2 → exec .sub s = .next { s with status := .faulted, ferr := some .stackUnderflow }) ∧
    ∀ a b below, s.stk = a :: b :: below →
      exec .sub s = .next { s with stk := wrap s.cfg.width (b - a) :: below, ip := s.ip + 1 }

/-- R124 (the wrap is decision D3, log entry 12). -/
def Obligations.MulPushesTheWrappedProduct : Prop :=
  encode referenceConfig .mul = [4] ∧
  ∀ s : State,
    (s.sp < 2 → exec .mul s = .next { s with status := .faulted, ferr := some .stackUnderflow }) ∧
    ∀ a b below, s.stk = a :: b :: below →
      exec .mul s = .next { s with stk := wrap s.cfg.width (a * b) :: below, ip := s.ip + 1 } ∧
      exec .mul { s with stk := b :: a :: below } = exec .mul s

/-- R125 (the wrap is decision D3, log entry 12). -/
def Obligations.DivMultipliesByTheTruncatedReciprocal : Prop :=
  encode referenceConfig .div = [5] ∧
  ∀ s : State,
    (s.sp < 2 → exec .div s = .next { s with status := .faulted, ferr := some .stackUnderflow }) ∧
    (∀ b below, s.stk = 0 :: b :: below →
      exec .div s = .next { s with status := .faulted, ferr := some .divisionByZero }) ∧
    ∀ a b below, s.stk = a :: b :: below → a ≠ 0 →
      exec .div s = .next { s with stk := wrap s.cfg.width (Int.tdiv 1 a * b) :: below, ip := s.ip + 1 }

/-- R126: DIV's result as a total table over the first popped value, on cells. -/
def Obligations.DivResultTable : Prop :=
  ∀ (s : State) (a b : Int) (below : List Int), 1 ≤ s.cfg.width → isCell s.cfg.width b →
    s.stk = a :: b :: below →
    (a = 1 → exec .div s = .next { s with stk := b :: below, ip := s.ip + 1 }) ∧
    (a = -1 → b ≠ intMin s.cfg.width → exec .div s = .next { s with stk := -b :: below, ip := s.ip + 1 }) ∧
    (a = -1 → b = intMin s.cfg.width →
      exec .div s = .next { s with stk := intMin s.cfg.width :: below, ip := s.ip + 1 }) ∧
    (2 ≤ a → exec .div s = .next { s with stk := 0 :: below, ip := s.ip + 1 }) ∧
    (a ≤ -2 → exec .div s = .next { s with stk := 0 :: below, ip := s.ip + 1 }) ∧
    (a = 0 → exec .div s = .next { s with status := .faulted, ferr := some .divisionByZero })

/-! Output -/

/-- R135. -/
def Obligations.PrintAppendsTheTop : Prop :=
  encode referenceConfig .print = [8] ∧
  ∀ s : State,
    (s.stk = [] → exec .print s = .next { s with status := .faulted, ferr := some .stackUnderflow }) ∧
    ∀ v below, s.stk = v :: below → exec .print s = .next { s with out := s.out ++ [v], ip := s.ip + 1 }

/-- R30, text form: sign, base-ten digits of the magnitude without leading zeros, line feed. The exact text is the
spec's own reading (92_eei_decisions.md D15, log entry 20); that the characters but the line feed are ASCII bytes is
the model's choice (PRESUMED, log entry 26). -/
def Obligations.PrintedTextIsDecimal : Prop :=
  ∀ v : Int, ∃ ds : List Nat,
    cellText v = (if v < 0 then [0x2D#8] else []) ++ ds.map (fun d => BitVec.ofNat 8 (0x30 + d)) ++ [0x0A#8] ∧
      ds ≠ [] ∧ (∀ d ∈ ds, d < 10) ∧ (ds.head? = some 0 → ds = [0]) ∧
      ds.foldl (fun n d => 10 * n + d) 0 = v.natAbs

/-! Control transfer -/

/-- R140 (the legal range of a target is decision D8, log entry 16). -/
def Obligations.JmpSetsIpToItsTarget : Prop :=
  (∀ t : Int, encode referenceConfig (.jmp t) = [9, t]) ∧
  (∀ s : State, s.OperandMissing .jmp →
    step s = .next { s with status := .faulted, ferr := some .programBoundsError }) ∧
  ∀ (s : State) (t : Int),
    (s.ValidTarget t → exec (.jmp t) s = .next { s with ip := t.toNat }) ∧
    (¬ s.ValidTarget t → exec (.jmp t) s = .next { s with status := .faulted, ferr := some .programBoundsError })

/-- R141 (the legal range of a target is decision D8, log entry 16). -/
def Obligations.JzPopsAndJumpsOnZero : Prop :=
  (∀ t : Int, encode referenceConfig (.jz t) = [10, t]) ∧
  (∀ s : State, s.OperandMissing .jz →
    step s = .next { s with status := .faulted, ferr := some .programBoundsError }) ∧
  ∀ (s : State) (t : Int),
    (s.stk = [] → exec (.jz t) s = .next { s with status := .faulted, ferr := some .stackUnderflow }) ∧
    ∀ v below, s.stk = v :: below →
      (v ≠ 0 → exec (.jz t) s = .next { s with stk := below, ip := s.ip + 2 }) ∧
      (v = 0 → s.ValidTarget t → exec (.jz t) s = .next { s with stk := below, ip := t.toNat }) ∧
      (v = 0 → ¬ s.ValidTarget t →
        exec (.jz t) s = .next { s with status := .faulted, ferr := some .programBoundsError })

/-- R142 (the legal range of a target is decision D8, log entry 16). -/
def Obligations.JnzPopsAndJumpsOnNonzero : Prop :=
  (∀ t : Int, encode referenceConfig (.jnz t) = [11, t]) ∧
  (∀ s : State, s.OperandMissing .jnz →
    step s = .next { s with status := .faulted, ferr := some .programBoundsError }) ∧
  ∀ (s : State) (t : Int),
    (s.stk = [] → exec (.jnz t) s = .next { s with status := .faulted, ferr := some .stackUnderflow }) ∧
    ∀ v below, s.stk = v :: below →
      (v = 0 → exec (.jnz t) s = .next { s with stk := below, ip := s.ip + 2 }) ∧
      (v ≠ 0 → s.ValidTarget t → exec (.jnz t) s = .next { s with stk := below, ip := t.toNat }) ∧
      (v ≠ 0 → ¬ s.ValidTarget t →
        exec (.jnz t) s = .next { s with status := .faulted, ferr := some .programBoundsError })

/-! Comparison -/

/-- R150. -/
def Obligations.EqPushesOneIffEqual : Prop :=
  encode referenceConfig .eq = [12] ∧
  ∀ s : State,
    (s.sp < 2 → exec .eq s = .next { s with status := .faulted, ferr := some .stackUnderflow }) ∧
    ∀ a b below, s.stk = a :: b :: below →
      exec .eq s = .next { s with stk := (if a = b then 1 else 0) :: below, ip := s.ip + 1 }

/-- R151. -/
def Obligations.LtPushesOneIffFirstPoppedIsGreater : Prop :=
  encode referenceConfig .lt = [13] ∧
  ∀ s : State,
    (s.sp < 2 → exec .lt s = .next { s with status := .faulted, ferr := some .stackUnderflow }) ∧
    ∀ a b below, s.stk = a :: b :: below →
      exec .lt s = .next { s with stk := (if a > b then 1 else 0) :: below, ip := s.ip + 1 }

/-- R152, with its corner case that exactly one of EQ, LT, GT gives 1. -/
def Obligations.GtPushesOneIffFirstPoppedIsLess : Prop :=
  encode referenceConfig .gt = [14] ∧
  ∀ s : State,
    (s.sp < 2 → exec .gt s = .next { s with status := .faulted, ferr := some .stackUnderflow }) ∧
    ∀ a b below, s.stk = a :: b :: below →
      exec .gt s = .next { s with stk := (if a < b then 1 else 0) :: below, ip := s.ip + 1 } ∧
      ∃ e l g : Int, exec .eq s = .next { s with stk := e :: below, ip := s.ip + 1 } ∧
        exec .lt s = .next { s with stk := l :: below, ip := s.ip + 1 } ∧
        exec .gt s = .next { s with stk := g :: below, ip := s.ip + 1 } ∧ e + l + g = 1

/-! Variable memory -/

/-- R155, with the frame: every other slot and flag is as before. -/
def Obligations.AllocZeroesAndFlagsItsSlot : Prop :=
  (∀ i : Int, encode referenceConfig (.alloc i) = [15, i]) ∧
  (∀ s : State, s.OperandMissing .alloc →
    step s = .next { s with status := .faulted, ferr := some .programBoundsError }) ∧
  ∀ (s : State) (i : Int),
    (¬ s.ValidSlot i →
      exec (.alloc i) s = .next { s with status := .faulted, ferr := some .memoryIndexOutOfRange }) ∧
    (s.ValidSlot i → ∃ t : State, exec (.alloc i) s = .next t ∧
      t.readSlot i.toNat = some 0 ∧ t.allocFlag i.toNat = true ∧ t.ip = s.ip + 2 ∧
      (∀ j, j ≠ i.toNat → t.readSlot j = s.readSlot j ∧ t.allocFlag j = s.allocFlag j) ∧
      t.stk = s.stk ∧ t.out = s.out ∧ t.status = s.status ∧ t.ferr = s.ferr ∧ t.prog = s.prog ∧ t.cfg = s.cfg)

/-- R156, with the frame in the equality of states. -/
def Obligations.LoadPushesItsSlot : Prop :=
  (∀ i : Int, encode referenceConfig (.load i) = [16, i]) ∧
  (∀ s : State, s.OperandMissing .load →
    step s = .next { s with status := .faulted, ferr := some .programBoundsError }) ∧
  ∀ (s : State) (i : Int),
    (¬ s.ValidSlot i →
      exec (.load i) s = .next { s with status := .faulted, ferr := some .memoryIndexOutOfRange }) ∧
    (s.ValidSlot i → ¬ s.Usable i.toNat →
      exec (.load i) s = .next { s with status := .faulted, ferr := some .unallocatedSlot }) ∧
    ∀ v, s.ValidSlot i → s.Usable i.toNat → s.readSlot i.toNat = some v →
      (s.cfg.stackCap ≤ s.sp →
        exec (.load i) s = .next { s with status := .faulted, ferr := some .stackOverflow }) ∧
      (s.sp < s.cfg.stackCap → exec (.load i) s = .next { s with stk := v :: s.stk, ip := s.ip + 2 })

/-- R157, with the frame: every other slot and every flag is as before. -/
def Obligations.StoreWritesItsSlot : Prop :=
  (∀ i : Int, encode referenceConfig (.store i) = [17, i]) ∧
  (∀ s : State, s.OperandMissing .store →
    step s = .next { s with status := .faulted, ferr := some .programBoundsError }) ∧
  ∀ (s : State) (i : Int),
    (s.stk = [] → exec (.store i) s = .next { s with status := .faulted, ferr := some .stackUnderflow }) ∧
    ∀ v below, s.stk = v :: below →
      (¬ s.ValidSlot i →
        exec (.store i) s = .next { s with status := .faulted, ferr := some .memoryIndexOutOfRange }) ∧
      (s.ValidSlot i → ¬ s.Usable i.toNat →
        exec (.store i) s = .next { s with status := .faulted, ferr := some .unallocatedSlot }) ∧
      (s.ValidSlot i → s.Usable i.toNat → ∃ t : State, exec (.store i) s = .next t ∧
        t.readSlot i.toNat = some v ∧ t.stk = below ∧ t.ip = s.ip + 2 ∧
        (∀ j, j ≠ i.toNat → t.readSlot j = s.readSlot j) ∧ (∀ j, t.allocFlag j = s.allocFlag j) ∧
        t.out = s.out ∧ t.status = s.status ∧ t.ferr = s.ferr ∧ t.prog = s.prog ∧ t.cfg = s.cfg)

/-- R159: the slot that ALLOC has zeroed loads as 0, whatever it held before, in both configurations. -/
def Obligations.LoadAfterAllocPushesZero : Prop :=
  ∀ (s : State) (i : Int), s.ValidSlot i → s.sp < s.cfg.stackCap →
    ∃ t u : State, exec (.alloc i) s = .next t ∧ exec (.load i) t = .next u ∧ u.stk = 0 :: s.stk

/-- R58 (b): a LOAD returns the value of the latest STORE to its slot, whatever one other step, none of them an
ALLOC or a STORE of that slot, comes between. -/
def Obligations.LoadReturnsTheLatestStore : Prop :=
  ∀ (s t u : State) (n : Int) (i : Instr) (v : Int) (below : List Int), s.stk = v :: below → s.ValidSlot n →
    s.Usable n.toNat → exec (.store n) s = .next t → i.storeSlot? ≠ some n.toNat → exec i t = .next u →
    u.sp < u.cfg.stackCap → exec (.load n) u = .next { u with stk := v :: u.stk, ip := u.ip + 2 }

/-! HALT and the loop -/

/-- R165 (that `ip` stays at the HALT is decision D11, log entry 15). -/
def Obligations.HaltStopsTheRunInPlace : Prop :=
  encode referenceConfig .halt = [18] ∧ ∀ s : State, exec .halt s = .next { s with status := .halted }

/-- R91: the end of the program is a clean stop that changes nothing but `status`. -/
def Obligations.EndOfProgramHalts : Prop :=
  ∀ s : State, s.status = .running → s.plen ≤ s.ip → step s = .next { s with status := .halted }

/-- R92: a cell that is no opcode number faults as UnknownInstruction, with nothing else changed; the fault comes
from nothing else (R175). -/
def Obligations.UnknownOpcodeFaults : Prop :=
  ∀ s : State, s.status = .running →
    (step s = .next { s with status := .faulted, ferr := some .unknownInstruction } ↔
      ∃ v, s.prog[s.ip]? = some v ∧ ∀ m : Mnemonic, s.cfg.opc.number m ≠ v)

/-- R90, last line: the step executes the instruction that the cells at `ip` decode to. -/
def Obligations.StepExecutesTheDecodedInstruction : Prop :=
  ∀ (s : State) (i : Instr) (rest : List Int), s.status = .running →
    decode s.cfg (s.prog.drop s.ip) = .instr i rest → step s = exec i s

/-- R98, R28: in Halted and in Faulted the core has no step. That the model answers the named stop `coreStopped`
there is the model's choice (log entry 9). -/
def Obligations.TerminalStatesHaveNoStep : Prop :=
  ∀ s : State, s.status ≠ .running → step s = .fault .coreStopped

/-- R95, R179: a step that ends Faulted has written `status` and `ferr` and nothing else (92_eei_decisions.md D10,
log entry 14). -/
def Obligations.FaultsArePrecise : Prop :=
  ∀ s t : State, step s = .next t → t.status = .faulted →
    ∃ K, t = { s with status := .faulted, ferr := some K }

/-! Each fault kind and its condition -/

/-- R171: StackUnderflow is raised exactly when fewer cells are live than the instruction needs. -/
def Obligations.UnderflowIffTooFewLiveCells : Prop :=
  ∀ (i : Instr) (s : State), s.status = .running →
    (exec i s = .next { s with status := .faulted, ferr := some .stackUnderflow } ↔ s.sp < i.mnemonic.stackNeed)

/-- R172: StackOverflow is raised exactly by PUSH, DUP and LOAD (once their other checks pass) on a full stack, and
no instruction leaves more cells on a full stack than it found. -/
def Obligations.OverflowIffPushOnAFullStack : Prop :=
  ∀ (i : Instr) (s : State), s.status = .running →
    (exec i s = .next { s with status := .faulted, ferr := some .stackOverflow } ↔
      s.cfg.stackCap ≤ s.sp ∧ ((∃ v, i = .push v) ∨ (i = .dup ∧ 1 ≤ s.sp) ∨
        ∃ n v : Int, i = .load n ∧ s.ValidSlot n ∧ s.Usable n.toNat ∧ s.readSlot n.toNat = some v)) ∧
    (s.cfg.stackCap ≤ s.sp → ∀ t, exec i s = .next t → t.status ≠ .faulted → t.sp ≤ s.sp)

/-- R173: MemoryIndexOutOfRange is raised exactly when ALLOC, LOAD or STORE (with its operand on the stack) names
an index outside the declared size. -/
def Obligations.IndexFaultIffOutsideTheDeclaredSize : Prop :=
  ∀ (i : Instr) (s : State), s.status = .running →
    (exec i s = .next { s with status := .faulted, ferr := some .memoryIndexOutOfRange } ↔
      ∃ n : Int, (i = .alloc n ∨ i = .load n ∨ (i = .store n ∧ 1 ≤ s.sp)) ∧ (n < 0 ∨ (s.cfg.memSize : Int) ≤ n))

/-- R174: DivisionByZero is raised exactly by DIV with the first popped value 0. -/
def Obligations.DivisionFaultIffFirstPoppedIsZero : Prop :=
  ∀ (i : Instr) (s : State), s.status = .running →
    (exec i s = .next { s with status := .faulted, ferr := some .divisionByZero } ↔
      i = .div ∧ ∃ b below, s.stk = 0 :: b :: below)

/-- R176 (b), R143: an executed instruction raises ProgramBoundsError exactly when it is a taken jump whose target
is outside the program (92_eei_decisions.md D8, log entry 16). -/
def Obligations.TargetFaultIffTakenJumpLeavesTheProgram : Prop :=
  ∀ (i : Instr) (s : State), s.status = .running →
    (exec i s = .next { s with status := .faulted, ferr := some .programBoundsError } ↔
      ∃ t : Int, (t < 0 ∨ (s.plen : Int) ≤ t) ∧
        (i = .jmp t ∨ (i = .jz t ∧ s.stk.head? = some 0) ∨ (i = .jnz t ∧ ∃ v ≠ 0, s.stk.head? = some v)))

/-- R177, R158: UnallocatedSlot is raised exactly by LOAD or STORE of a slot in range whose flag is clear, under
`UNALLOC_POLICY = fault` (92_eei_decisions.md D7, log entry 4). -/
def Obligations.UnallocatedFaultIffFlagClear : Prop :=
  ∀ (i : Instr) (s : State), s.status = .running →
    (exec i s = .next { s with status := .faulted, ferr := some .unallocatedSlot } ↔
      s.cfg.unallocPolicy = .fault ∧
        ∃ n : Int, s.ValidSlot n ∧ s.allocFlag n.toNat = false ∧ (i = .load n ∨ (i = .store n ∧ 1 ≤ s.sp)))

/-- R178: which instruction can raise which fault once its operand is fetched. -/
def Obligations.InstructionsRaiseOnlyTheirListedFaults : Prop :=
  ∀ (i : Instr) (s t : State), s.status = .running → exec i s = .next t → t.status = .faulted →
    ∃ K ∈ i.mnemonic.faultKinds, t = { s with status := .faulted, ferr := some K }

/-- R96: the outcomes that it lists where two conditions hold at once (92_eei_decisions.md D9, log entry 13). -/
def Obligations.FirstCheckInOrderDecidesTheFault : Prop :=
  (∀ s : State, s.OperandMissing .push → s.sp = s.cfg.stackCap → step s = .next (s.faultedWith .programBoundsError)) ∧
  (∀ s : State, s.OperandMissing .jz → s.sp = 0 → step s = .next (s.faultedWith .programBoundsError)) ∧
  (∀ s : State, s.OperandMissing .jnz → s.sp = 0 → step s = .next (s.faultedWith .programBoundsError)) ∧
  (∀ (s : State) (n : Int), s.sp = 0 → ¬ s.ValidSlot n → exec (.store n) s = .next (s.faultedWith .stackUnderflow)) ∧
  (∀ (s : State) (n : Int), ¬ s.ValidSlot n → s.sp = s.cfg.stackCap →
    exec (.load n) s = .next (s.faultedWith .memoryIndexOutOfRange)) ∧
  (∀ (s : State) (n : Int), s.ValidSlot n → ¬ s.Usable n.toNat → s.sp = s.cfg.stackCap →
    exec (.load n) s = .next (s.faultedWith .unallocatedSlot)) ∧
  (∀ s : State, s.stk = [0] → exec .div s = .next (s.faultedWith .stackUnderflow)) ∧
  (∀ (s : State) (t : Int), s.sp = 0 → ¬ s.ValidTarget t → exec (.jz t) s = .next (s.faultedWith .stackUnderflow))

/-- The model's own stop: no instruction is refused, and the one fault of the model in `exec` is LOAD of a usable
slot that holds no value (log entry 10). -/
def Obligations.OnlyAValuelessSlotStopsTheModel : Prop :=
  ∀ (i : Instr) (s : State),
    (∃ t, exec i s = .next t) ∨
      (exec i s = .fault .slotHoldsNoValue ∧ ∃ n : Int, i = .load n ∧ s.ValidSlot n ∧ s.Usable n.toNat ∧
        s.readSlot n.toNat = none)

/-! Rules of the whole machine -/

/-- R35, its clauses (a), (b), (c), (e), (f), (h): one step from a state that meets the invariant gives a state that
meets it. -/
def Obligations.EveryStepKeepsTheRunInvariant : Prop :=
  ∀ s t : State, s.Inv → step s = .next t → t.Inv

/-- R35, R34: the start of a run of a legal program in a legal configuration meets the invariant; so does
`State.reset`. -/
def Obligations.RunStartMeetsTheRunInvariant : Prop :=
  (∀ (c : Config) (p : List Int), c.Legal → c.LegalProgram p → (State.initial c p).Inv) ∧ State.reset.Inv

/-- R35: in every state of every run of a legal program in a legal configuration, clauses (a), (b), (c), (e), (f)
and (h) hold, and the configuration and the program are those of the start. -/
def Obligations.ReachableStatesMeetTheBounds : Prop :=
  ∀ (c : Config) (p : List Int) (s : State), c.Legal → c.LegalProgram p → Reachable c p s →
    s.cfg = c ∧ s.prog = p ∧ s.sp ≤ c.stackCap ∧ s.ip ≤ p.length ∧ (s.status = .faulted ↔ s.ferr ≠ none) ∧
      (∀ i, s.allocFlag i = true → ∃ v, s.readSlot i = some v ∧ isCell c.width v) ∧
      (c.unallocPolicy = .fault → ∀ i v, s.readSlot i = some v → s.allocFlag i = true) ∧
      (s.status = .faulted → s.ip < p.length)

/-- R100, R212: from every Running state that meets the invariant the core takes its next step, to Running, to
Halted without a fault kind, or to Faulted with one. -/
def Obligations.RunningCoreAlwaysSteps : Prop :=
  ∀ s : State, s.Inv → s.status = .running →
    ∃ t, step s = .next t ∧
      ((t.status = .running ∧ t.ferr = none) ∨ (t.status = .halted ∧ t.ferr = none) ∨
        ∃ K, t.status = .faulted ∧ t.ferr = some K)

/-- R28: the only transitions of `status`, each with its cause. -/
def Obligations.StatusMovesOnlyFromRunning : Prop :=
  ∀ s t : State, s.cfg.Legal → step s = .next t →
    s.status = .running ∧
      (t.status = .halted ↔ s.plen ≤ s.ip ∨ s.prog[s.ip]? = some (s.cfg.opc.number .halt)) ∧
      (t.status = .faulted → ∃ K, t.ferr = some K)

/-- R60, R33: no step writes the program or the configuration. -/
def Obligations.ProgramAndConfigurationAreNeverWritten : Prop :=
  ∀ s t : State, step s = .next t → t.prog = s.prog ∧ t.cfg = s.cfg

/-- R136, R30, R35 (g): a step appends at most one value to the output, exactly when it executes PRINT without a
fault, and never removes one. -/
def Obligations.OutputGrowsOnlyByPrint : Prop :=
  ∀ s t : State, s.cfg.Legal → step s = .next t →
    (s.AtOpcode .print ∧ t.status ≠ .faulted → ∃ v, s.stk.head? = some v ∧ t.out = s.out ++ [v]) ∧
    (¬ s.AtOpcode .print ∨ t.status = .faulted → t.out = s.out)

/-- R27, R26, R53: a step changes a slot only by ALLOC or STORE of that slot and a flag only by ALLOC of that slot,
which sets it. -/
def Obligations.MemoryChangesOnlyByAllocAndStore : Prop :=
  ∀ (i : Instr) (s t : State), exec i s = .next t →
    (∀ j, some j ≠ i.storeSlot? → t.readSlot j = s.readSlot j ∧ t.allocFlag j = s.allocFlag j) ∧
    (∀ j, s.allocFlag j = true → t.allocFlag j = true) ∧
    (∀ j, t.allocFlag j ≠ s.allocFlag j → t.allocFlag j = true ∧ ∃ n : Int, i = .alloc n ∧ n.toNat = j)

/-- R25, R94: how `ip` is written by an instruction that does not fault. -/
def Obligations.IpAdvanceTable : Prop :=
  ∀ (i : Instr) (s t : State), s.status = .running → exec i s = .next t →
    (t.status = .faulted → t.ip = s.ip) ∧
    (t.status ≠ .faulted →
      match i with
      | .halt => t.ip = s.ip
      | .jmp n => (t.ip : Int) = n
      | .jz n => (s.stk.head? = some 0 → (t.ip : Int) = n) ∧ (s.stk.head? ≠ some 0 → t.ip = s.ip + 2)
      | .jnz n => (s.stk.head? ≠ some 0 → (t.ip : Int) = n) ∧ (s.stk.head? = some 0 → t.ip = s.ip + 2)
      | .push _ | .alloc _ | .load _ | .store _ => t.ip = s.ip + 2
      | .pop | .add | .sub | .mul | .div | .dup | .swap | .print | .eq | .lt | .gt => t.ip = s.ip + 1)

/-- R23: the net change of `sp` by an instruction that does not fault, and the cells that it needs. -/
def Obligations.StackUseTable : Prop :=
  ∀ (i : Instr) (s t : State), s.status = .running → exec i s = .next t → t.status ≠ .faulted →
    i.mnemonic.stackNeed ≤ s.sp ∧ t.sp + i.mnemonic.pops = s.sp + i.mnemonic.pushes

/-- R50, R120: no cell below those an instruction needs is moved or written, in the spec's own numbering of the
stack from its bottom. -/
def Obligations.CellsBelowTheNeededAreUntouched : Prop :=
  ∀ (i : Instr) (s t : State), exec i s = .next t →
    ∀ k, k + i.mnemonic.stackNeed < s.sp → t.stkAt k = s.stkAt k

/-- R32, R71, R165: the step depends on no cell of the program but those it reads: `prog[ip]`, and `prog[ip + 1]`
for a format-O opcode; both lie inside the program. -/
def Obligations.StepReadsOnlyTheFetchedCells : Prop :=
  ∀ (s t : State) (p : List Int), p.length = s.plen → (∀ k ∈ programReads s, p[k]? = s.prog[k]?) →
    step s = .next t → step { s with prog := p } = .next { t with prog := p } ∧ ∀ k ∈ programReads s, k < s.plen

/-- R158 (decision D7, log entry 4): as long as no slot is used before its ALLOC, the builds with `UNALLOC_POLICY = fault` and `zero` go
through the same steps. -/
def Obligations.PoliciesAgreeUntilAnUnallocatedUse : Prop :=
  ∀ s z t : State, PolicyRelated s z → step s = .next t → t.ferr ≠ some .unallocatedSlot →
    ∃ u, step z = .next u ∧ PolicyRelated t u

/-! Encoding -/

/-- R71 to R73, R75: in every legal configuration decoding the cells of any instruction, whatever follows them, gives
it back with the rest; and the cells of a well-formed instruction are cell values. -/
def Obligations.DecodeAfterEncodeIsIdentity : Prop :=
  ∀ (c : Config) (i : Instr) (rest : List Int), c.Legal → i.WellFormed c →
    decode c (encode c i ++ rest) = .instr i rest ∧ ∀ v ∈ encode c i, isCell c.width v

/-- R73, R76: cells that decode to an instruction are exactly its encoding; no cell value has a second meaning. -/
def Obligations.EncodeAfterDecodeIsIdentity : Prop :=
  ∀ (c : Config) (cells rest : List Int) (i : Instr), decode c cells = .instr i rest →
    cells = encode c i ++ rest

/-- R75, R80: walking a program in sequence finds its instructions. -/
def Obligations.ProgramWalkFindsTheInstructions : Prop :=
  ∀ (c : Config) (is : List Instr), c.Legal → decodeProgram c (encodeProgram c is) = some is

/-- R7, R81: an instruction's word, with its operand at every cell value, decodes to it: no bit of the opcode cell
or of the operand cell is dropped. That the operand cell stands in bits 63..32 is the model's choice (DESIGN CHOICE,
log entry 21); the width and the numbers are the reference configuration's (log entries 3 and 4). -/
def Obligations.TableWordRoundTrip : Prop :=
  ∀ i : Instr, i.WellFormed referenceConfig → decodeTableWord 64 (encodeTableWord i) = some i

/-- R74, R81: words of spec/opcode_table.json written out, and three that are no instruction (R76). The first cell in
bits 31..0 is R81's; that the operand cell of the 64-bit words stands in bits 63..32 is the model's choice (DESIGN
CHOICE, log entry 21). The numbers and the width are the reference configuration's (log entries 3 and 4). -/
def Obligations.TableWordsDecode : Prop :=
  decodeTableWord 64 0x0000000700000000 = some (.push 7) ∧
  decodeTableWord 64 0xFFFFFFFF00000000 = some (.push (-1)) ∧
  decodeTableWord 32 0x00000003 = some .sub ∧
  decodeTableWord 32 0x00000008 = some .print ∧
  decodeTableWord 64 0x000000030000000A = some (.jz 3) ∧
  decodeTableWord 32 0x0000000D = some .lt ∧
  decodeTableWord 64 0x000000FF00000010 = some (.load 255) ∧
  decodeTableWord 32 0x00000012 = some .halt ∧
  decodeTableWord 32 0x00000013 = none ∧ decodeTableWord 32 0x000000FF = none ∧
  decodeTableWord 32 0xFFFFFFFF = none
end

