-- ==== Sys2Proof/Laws/Decode.lean ====
section
/-! SUPPORT. What the decoder answers, said once (30_encoding.md R73 to R76). -/

namespace Sys2Proof

theorem Mnemonic.mem_all (m : Mnemonic) : m ∈ Mnemonic.all := by cases m <;> simp [Mnemonic.all]

/-- A mnemonic found for a cell has that cell as its opcode number. -/
theorem OpcodeMap.number_of_mnemonicOf {o : OpcodeMap} {v : Int} {m : Mnemonic} (h : o.mnemonicOf v = some m) :
    o.number m = v := by
  simpa using List.find?_some h

/-- No mnemonic is found exactly for a cell that is no opcode number (30_encoding.md R76). -/
theorem OpcodeMap.mnemonicOf_eq_none {o : OpcodeMap} {v : Int} :
    o.mnemonicOf v = none ↔ ∀ m, o.number m ≠ v := by
  simp [OpcodeMap.mnemonicOf, Mnemonic.mem_all]

/-- Under an injective `OPC` an opcode number decodes to its mnemonic. -/
theorem OpcodeMap.mnemonicOf_number {o : OpcodeMap} (ho : o.Injective) (m : Mnemonic) :
    o.mnemonicOf (o.number m) = some m := by
  cases h : o.mnemonicOf (o.number m) with
  | none => exact absurd rfl (OpcodeMap.mnemonicOf_eq_none.mp h m)
  | some m' =>
    rw [ho m' (Mnemonic.mem_all m') m (Mnemonic.mem_all m) (OpcodeMap.number_of_mnemonicOf h)]

/-- The form of an instruction's own mnemonic makes it again from its operand. -/
theorem decodeOperand_own (i : Instr) (rest : List Int) :
    decodeOperand i.mnemonic (i.operand?.toList ++ rest) = .instr i rest := by
  cases i <;> rfl

/-- An operand stage that answers an instruction took that instruction's own operand. -/
theorem decodeOperand_instr {m : Mnemonic} {cells rest : List Int} {i : Instr}
    (h : decodeOperand m cells = .instr i rest) : i.mnemonic = m ∧ cells = i.operand?.toList ++ rest := by
  cases m <;> cases cells <;> simp [decodeOperand, Mnemonic.form] at h <;> obtain ⟨rfl, rfl⟩ := h <;>
    exact ⟨rfl, rfl⟩

/-- The operand stage is rejected only for want of a cell. -/
theorem decodeOperand_rejected {m : Mnemonic} {cells : List Int} {e : DecodeError}
    (h : decodeOperand m cells = .rejected e) : e = .missingOperand m ∧ cells = [] ∧ m.cells = 2 := by
  cases m <;> cases cells <;> simp [decodeOperand, Mnemonic.form] at h <;> simp [h, Mnemonic.cells]

/-- The number of cells of an encoded instruction (30_encoding.md R74, column "cells"). -/
theorem encode_length (c : Config) (i : Instr) : (encode c i).length = i.mnemonic.cells := by cases i <;> rfl

theorem Mnemonic.one_le_cells (m : Mnemonic) : 1 ≤ m.cells := by cases m <;> simp [Mnemonic.cells]

/-- What decoding an instruction says of the cells: the opcode cell is that of its mnemonic and the operand
follows it. -/
theorem decode_instr {c : Config} {cells rest : List Int} {i : Instr} (h : decode c cells = .instr i rest) :
    ∃ v, cells = v :: (i.operand?.toList ++ rest) ∧ c.opc.mnemonicOf v = some i.mnemonic := by
  cases cells with
  | nil => cases h
  | cons v tail =>
    simp only [decode] at h
    split at h
    · cases h
    · rename_i m hm
      obtain ⟨rfl, rfl⟩ := decodeOperand_instr h
      exact ⟨v, rfl, hm⟩

/-- What a rejection says of the cells (30_encoding.md R72, R76). -/
theorem decode_rejected {c : Config} {cells : List Int} {e : DecodeError} (h : decode c cells = .rejected e) :
    (e = .noCell ∧ cells = []) ∨
    (∃ v rest, e = .unknownOpcode v ∧ cells = v :: rest ∧ c.opc.mnemonicOf v = none) ∨
    (∃ v m, e = .missingOperand m ∧ cells = [v] ∧ c.opc.mnemonicOf v = some m ∧ m.cells = 2) := by
  cases cells with
  | nil => exact .inl ⟨by simpa [decode] using h.symm, rfl⟩
  | cons v tail =>
    simp only [decode] at h
    split at h
    · rename_i hm
      exact .inr (.inl ⟨v, tail, by simpa using h.symm, rfl, hm⟩)
    · rename_i m hm
      obtain ⟨rfl, rfl, h2⟩ := decodeOperand_rejected h
      exact .inr (.inr ⟨v, m, rfl, rfl, hm, h2⟩)

end Sys2Proof
end

