-- ==== Sys2Proof/Laws/State.lean ====
section
/-! SUPPORT. What each update of the state changes and what it leaves: one lemma for each field and update. -/

namespace Sys2Proof.Machine

variable (s : State) (t : Nat) (i : Nat) (v : Int) (cells : List Int) (K : FaultKind)

@[simp] theorem State.setStk_cfg : (s.setStk cells).cfg = s.cfg := rfl
@[simp] theorem State.setStk_prog : (s.setStk cells).prog = s.prog := rfl
@[simp] theorem State.setStk_stk : (s.setStk cells).stk = cells := rfl
@[simp] theorem State.setStk_mem : (s.setStk cells).mem = s.mem := rfl
@[simp] theorem State.setStk_alloc : (s.setStk cells).alloc = s.alloc := rfl
@[simp] theorem State.setStk_ip : (s.setStk cells).ip = s.ip := rfl
@[simp] theorem State.setStk_status : (s.setStk cells).status = s.status := rfl
@[simp] theorem State.setStk_ferr : (s.setStk cells).ferr = s.ferr := rfl
@[simp] theorem State.setStk_out : (s.setStk cells).out = s.out := rfl

@[simp] theorem State.setIp_cfg : (s.setIp t).cfg = s.cfg := rfl
@[simp] theorem State.setIp_prog : (s.setIp t).prog = s.prog := rfl
@[simp] theorem State.setIp_stk : (s.setIp t).stk = s.stk := rfl
@[simp] theorem State.setIp_mem : (s.setIp t).mem = s.mem := rfl
@[simp] theorem State.setIp_alloc : (s.setIp t).alloc = s.alloc := rfl
@[simp] theorem State.setIp_ip : (s.setIp t).ip = t := rfl
@[simp] theorem State.setIp_status : (s.setIp t).status = s.status := rfl
@[simp] theorem State.setIp_ferr : (s.setIp t).ferr = s.ferr := rfl
@[simp] theorem State.setIp_out : (s.setIp t).out = s.out := rfl

@[simp] theorem State.advance_cfg : (s.advance t).cfg = s.cfg := rfl
@[simp] theorem State.advance_prog : (s.advance t).prog = s.prog := rfl
@[simp] theorem State.advance_stk : (s.advance t).stk = s.stk := rfl
@[simp] theorem State.advance_mem : (s.advance t).mem = s.mem := rfl
@[simp] theorem State.advance_alloc : (s.advance t).alloc = s.alloc := rfl
@[simp] theorem State.advance_ip : (s.advance t).ip = s.ip + t := rfl
@[simp] theorem State.advance_status : (s.advance t).status = s.status := rfl
@[simp] theorem State.advance_ferr : (s.advance t).ferr = s.ferr := rfl
@[simp] theorem State.advance_out : (s.advance t).out = s.out := rfl

@[simp] theorem State.emit_cfg : (s.emit v).cfg = s.cfg := rfl
@[simp] theorem State.emit_prog : (s.emit v).prog = s.prog := rfl
@[simp] theorem State.emit_stk : (s.emit v).stk = s.stk := rfl
@[simp] theorem State.emit_mem : (s.emit v).mem = s.mem := rfl
@[simp] theorem State.emit_alloc : (s.emit v).alloc = s.alloc := rfl
@[simp] theorem State.emit_ip : (s.emit v).ip = s.ip := rfl
@[simp] theorem State.emit_status : (s.emit v).status = s.status := rfl
@[simp] theorem State.emit_ferr : (s.emit v).ferr = s.ferr := rfl
@[simp] theorem State.emit_out : (s.emit v).out = s.out ++ [v] := rfl

@[simp] theorem State.writeSlot_cfg : (s.writeSlot i v).cfg = s.cfg := rfl
@[simp] theorem State.writeSlot_prog : (s.writeSlot i v).prog = s.prog := rfl
@[simp] theorem State.writeSlot_stk : (s.writeSlot i v).stk = s.stk := rfl
@[simp] theorem State.writeSlot_mem : (s.writeSlot i v).mem = s.mem.write (unlistedSlot s.cfg.unallocPolicy) i v := rfl
@[simp] theorem State.writeSlot_alloc : (s.writeSlot i v).alloc = s.alloc := rfl
@[simp] theorem State.writeSlot_ip : (s.writeSlot i v).ip = s.ip := rfl
@[simp] theorem State.writeSlot_status : (s.writeSlot i v).status = s.status := rfl
@[simp] theorem State.writeSlot_ferr : (s.writeSlot i v).ferr = s.ferr := rfl
@[simp] theorem State.writeSlot_out : (s.writeSlot i v).out = s.out := rfl

@[simp] theorem State.setAlloc_cfg : (s.setAlloc i).cfg = s.cfg := rfl
@[simp] theorem State.setAlloc_prog : (s.setAlloc i).prog = s.prog := rfl
@[simp] theorem State.setAlloc_stk : (s.setAlloc i).stk = s.stk := rfl
@[simp] theorem State.setAlloc_mem : (s.setAlloc i).mem = s.mem := rfl
@[simp] theorem State.setAlloc_alloc : (s.setAlloc i).alloc = insertSlot i s.alloc := rfl
@[simp] theorem State.setAlloc_ip : (s.setAlloc i).ip = s.ip := rfl
@[simp] theorem State.setAlloc_status : (s.setAlloc i).status = s.status := rfl
@[simp] theorem State.setAlloc_ferr : (s.setAlloc i).ferr = s.ferr := rfl
@[simp] theorem State.setAlloc_out : (s.setAlloc i).out = s.out := rfl

@[simp] theorem State.faultedWith_cfg : (s.faultedWith K).cfg = s.cfg := rfl
@[simp] theorem State.faultedWith_prog : (s.faultedWith K).prog = s.prog := rfl
@[simp] theorem State.faultedWith_stk : (s.faultedWith K).stk = s.stk := rfl
@[simp] theorem State.faultedWith_mem : (s.faultedWith K).mem = s.mem := rfl
@[simp] theorem State.faultedWith_alloc : (s.faultedWith K).alloc = s.alloc := rfl
@[simp] theorem State.faultedWith_ip : (s.faultedWith K).ip = s.ip := rfl
@[simp] theorem State.faultedWith_status : (s.faultedWith K).status = .faulted := rfl
@[simp] theorem State.faultedWith_ferr : (s.faultedWith K).ferr = some K := rfl
@[simp] theorem State.faultedWith_out : (s.faultedWith K).out = s.out := rfl

@[simp] theorem State.halt_cfg : s.halt.cfg = s.cfg := rfl
@[simp] theorem State.halt_prog : s.halt.prog = s.prog := rfl
@[simp] theorem State.halt_stk : s.halt.stk = s.stk := rfl
@[simp] theorem State.halt_mem : s.halt.mem = s.mem := rfl
@[simp] theorem State.halt_alloc : s.halt.alloc = s.alloc := rfl
@[simp] theorem State.halt_ip : s.halt.ip = s.ip := rfl
@[simp] theorem State.halt_status : s.halt.status = .halted := rfl
@[simp] theorem State.halt_ferr : s.halt.ferr = s.ferr := rfl
@[simp] theorem State.halt_out : s.halt.out = s.out := rfl

@[simp] theorem State.initial_cfg (c : Config) : (State.initial c cells).cfg = c := rfl
@[simp] theorem State.initial_prog (c : Config) : (State.initial c cells).prog = cells := rfl
@[simp] theorem State.initial_stk (c : Config) : (State.initial c cells).stk = [] := rfl
@[simp] theorem State.initial_mem (c : Config) : (State.initial c cells).mem = [] := rfl
@[simp] theorem State.initial_alloc (c : Config) : (State.initial c cells).alloc = [] := rfl
@[simp] theorem State.initial_ip (c : Config) : (State.initial c cells).ip = 0 := rfl
@[simp] theorem State.initial_status (c : Config) : (State.initial c cells).status = .running := rfl
@[simp] theorem State.initial_ferr (c : Config) : (State.initial c cells).ferr = none := rfl
@[simp] theorem State.initial_out (c : Config) : (State.initial c cells).out = [] := rfl

end Sys2Proof.Machine
end

