-- ==== Sys2Proof/Laws/Memory.lean ====
section
/-! SUPPORT. Variable memory and its flags: read after write, and that every operation keeps the canonical form. -/

namespace Sys2Proof.Machine

theorem Memory.lookup_insert (i j : Nat) (v : Int) (m : Memory) (h : m.lookup i = none) :
    (m.insert i v).lookup j = if i = j then some v else m.lookup j := by
  induction m with
  | nil => simp [Memory.insert, Memory.lookup]
  | cons e m ih =>
    obtain ⟨k, u⟩ := e
    rw [Memory.lookup] at h
    split at h
    · cases h
    · rename_i hk
      unfold Memory.insert
      split <;> simp only [Memory.lookup, ih h]
      by_cases hij : i = j
      · subst hij; simp [hk]
      · simp [hij]

theorem Memory.lookup_erase (i j : Nat) (m : Memory) :
    (m.erase i).lookup j = if i = j then none else m.lookup j := by
  induction m with
  | nil => simp [Memory.erase, Memory.lookup]
  | cons e m ih =>
    obtain ⟨k, u⟩ := e
    by_cases hk : k = i
    · have he : Memory.erase i ((k, u) :: m) = Memory.erase i m := by simp [Memory.erase, hk]
      rw [he, ih]
      by_cases h : i = j <;> simp [Memory.lookup, hk, h]
    · have he : Memory.erase i ((k, u) :: m) = (k, u) :: Memory.erase i m := by simp [Memory.erase, hk]
      rw [he, Memory.lookup, Memory.lookup, ih]
      by_cases h : i = j
      · subst h; simp [hk]
      · simp [h]

/-- Reading a slot after a write (20_memory.md R58 (b)): the slot written holds the value, every other is as it was. -/
theorem readSlot_writeSlot (s : State) (i j : Nat) (v : Int) :
    (s.writeSlot i v).readSlot j = if i = j then some v else s.readSlot j := by
  unfold State.readSlot State.writeSlot Memory.write
  by_cases hv : some v = unlistedSlot s.cfg.unallocPolicy
  · simp only [hv, if_true, Memory.lookup_erase]
    by_cases h : i = j <;> simp [h]
  · have he : (s.mem.erase i).lookup i = none := by simp [Memory.lookup_erase]
    simp only [hv, if_false, Memory.lookup_insert _ _ _ _ he, Memory.lookup_erase]
    by_cases h : i = j <;> simp [h]

@[simp] theorem readSlot_writeSlot_self (s : State) (i : Nat) (v : Int) : (s.writeSlot i v).readSlot i = some v := by
  simp [readSlot_writeSlot]

/-- A read depends on memory and the policy alone. -/
theorem readSlot_congr {s t : State} (hm : t.mem = s.mem) (hc : t.cfg.unallocPolicy = s.cfg.unallocPolicy) (i : Nat) :
    t.readSlot i = s.readSlot i := by
  simp [State.readSlot, hm, hc]

@[simp] theorem readSlot_setStk (s : State) (cells : List Int) (i : Nat) : (s.setStk cells).readSlot i = s.readSlot i := rfl
@[simp] theorem readSlot_setIp (s : State) (t i : Nat) : (s.setIp t).readSlot i = s.readSlot i := rfl
@[simp] theorem readSlot_advance (s : State) (n i : Nat) : (s.advance n).readSlot i = s.readSlot i := rfl
@[simp] theorem readSlot_emit (s : State) (v : Int) (i : Nat) : (s.emit v).readSlot i = s.readSlot i := rfl
@[simp] theorem readSlot_setAlloc (s : State) (n i : Nat) : (s.setAlloc n).readSlot i = s.readSlot i := rfl
@[simp] theorem readSlot_faultedWith (s : State) (K : FaultKind) (i : Nat) : (s.faultedWith K).readSlot i = s.readSlot i := rfl
@[simp] theorem readSlot_halt (s : State) (i : Nat) : s.halt.readSlot i = s.readSlot i := rfl

/-! The canonical form -/

theorem Memory.mem_insert {i : Nat} {v : Int} {m : Memory} {e : Nat × Int} :
    e ∈ m.insert i v ↔ e = (i, v) ∨ e ∈ m := by
  induction m with
  | nil => simp [Memory.insert]
  | cons d m ih =>
    unfold Memory.insert
    split
    · simp
    · simp only [List.mem_cons, ih]; grind

theorem Memory.mem_erase {i : Nat} {m : Memory} {e : Nat × Int} : e ∈ m.erase i ↔ e ∈ m ∧ e.1 ≠ i := by
  simp [Memory.erase]

theorem Memory.mem_write {u : Option Int} {i : Nat} {v : Int} {m : Memory} {e : Nat × Int}
    (h : e ∈ m.write u i v) : e = (i, v) ∨ (e ∈ m ∧ e.1 ≠ i) := by
  unfold Memory.write at h
  split at h
  · exact .inr (Memory.mem_erase.mp h)
  · exact (Memory.mem_insert.mp h).imp_right Memory.mem_erase.mp

theorem Memory.rising_insert {i : Nat} {v : Int} {m : Memory} (hm : (m.map Prod.fst).Pairwise (· < ·))
    (hi : ∀ e ∈ m, e.1 ≠ i) : ((m.insert i v).map Prod.fst).Pairwise (· < ·) := by
  induction m with
  | nil => simp [Memory.insert]
  | cons d m ih =>
    simp only [List.map_cons, List.pairwise_cons, List.mem_map] at hm
    obtain ⟨hd, hm⟩ := hm
    unfold Memory.insert
    split
    · rename_i hlt
      simp only [List.map_cons, List.pairwise_cons, List.mem_cons, List.mem_map]
      refine ⟨?_, fun a ha => hd a ha, hm⟩
      rintro a (rfl | ha)
      · exact hlt
      · exact Nat.lt_trans hlt (hd a ha)
    · rename_i hge
      have hne := hi d (by simp)
      simp only [List.map_cons, List.pairwise_cons, List.mem_map]
      refine ⟨?_, ih hm fun e he => hi e (List.mem_cons_of_mem _ he)⟩
      rintro a ⟨e, he, rfl⟩
      rcases Memory.mem_insert.mp he with rfl | he
      · simp only at hge hne ⊢; omega
      · exact hd _ ⟨e, he, rfl⟩

/-- Every write keeps the canonical form of memory. -/
theorem Memory.wf_write {u : Option Int} {i : Nat} {v : Int} {m : Memory} (hm : m.wf u) : (m.write u i v).wf u := by
  have he : ((m.erase i).map Prod.fst).Pairwise (· < ·) :=
    hm.1.sublist (List.Sublist.map _ List.filter_sublist)
  refine ⟨?_, ?_⟩
  · unfold Memory.write
    split
    · exact he
    · exact Memory.rising_insert he fun e h => (Memory.mem_erase.mp h).2
  · intro e h
    unfold Memory.write at h
    split at h
    · exact hm.2 e (Memory.mem_erase.mp h).1
    · rename_i hv
      rcases Memory.mem_insert.mp h with rfl | h
      · exact hv
      · exact hm.2 e (Memory.mem_erase.mp h).1

/-- Memory at the start of a run is in canonical form. -/
theorem Memory.wf_empty (u : Option Int) : Memory.wf u [] := by simp [Memory.wf]

theorem Memory.lookup_mem {i : Nat} {v : Int} {m : Memory} (h : m.lookup i = some v) : (i, v) ∈ m := by
  induction m with
  | nil => cases h
  | cons e m ih =>
    obtain ⟨k, u⟩ := e
    rw [Memory.lookup] at h
    split at h
    · cases h; simp_all
    · exact List.mem_cons_of_mem _ (ih h)

/-- A read that gives a value gives a listed one, or the 0 of `UNALLOC_POLICY = zero`. -/
theorem readSlot_some {s : State} {i : Nat} {v : Int} (h : s.readSlot i = some v) :
    (i, v) ∈ s.mem ∨ (s.cfg.unallocPolicy = .zero ∧ v = 0) := by
  unfold State.readSlot at h
  split at h
  · rename_i u hl
    cases h
    exact .inl (Memory.lookup_mem hl)
  · cases hp : s.cfg.unallocPolicy with
    | fault => simp [hp, unlistedSlot] at h
    | zero => simp only [hp, unlistedSlot, Option.some.injEq] at h; exact .inr ⟨rfl, h.symm⟩

/-! The allocation flags -/

theorem mem_insertSlot {i j : Nat} {l : List Nat} : j ∈ insertSlot i l ↔ j = i ∨ j ∈ l := by
  induction l with
  | nil => simp [insertSlot]
  | cons k l ih =>
    unfold insertSlot
    split
    · simp
    · split
      · rename_i h; subst h; simp
      · simp only [List.mem_cons, ih]; grind

theorem rising_insertSlot {i : Nat} {l : List Nat} (h : l.Pairwise (· < ·)) : (insertSlot i l).Pairwise (· < ·) := by
  induction l with
  | nil => simp [insertSlot]
  | cons k l ih =>
    obtain ⟨hk, hl⟩ := List.pairwise_cons.mp h
    unfold insertSlot
    split
    · rename_i hlt
      refine List.pairwise_cons.mpr ⟨?_, h⟩
      intro a ha
      rcases List.mem_cons.mp ha with rfl | ha
      · exact hlt
      · exact Nat.lt_trans hlt (hk a ha)
    · split
      · exact h
      · refine List.pairwise_cons.mpr ⟨?_, ih hl⟩
        intro a ha
        rcases mem_insertSlot.mp ha with rfl | ha
        · omega
        · exact hk a ha

theorem allocFlag_iff {s : State} {i : Nat} : s.allocFlag i = true ↔ i ∈ s.alloc := by simp [State.allocFlag]

theorem allocFlag_congr {s t : State} (h : t.alloc = s.alloc) (i : Nat) : t.allocFlag i = s.allocFlag i := by
  simp [State.allocFlag, h]

/-- A flag after ALLOC: its own slot's is set, every other is as it was. -/
theorem allocFlag_setAlloc (s : State) (i j : Nat) : (s.setAlloc i).allocFlag j = (decide (j = i) || s.allocFlag j) := by
  rw [Bool.eq_iff_iff]
  simp [State.allocFlag, mem_insertSlot]

end Sys2Proof.Machine
end

