-- ==== Sys2Proof/Laws/Ops.lean ====
section
/-! SUPPORT. Everything a shared operation can do, said once: if it answers a next state, then one of these cases
holds. Proofs cite these and do not unfold the operations. -/

namespace Sys2Proof.Machine

/-- A fault answers the faulted state (40_execution_loop.md R95). -/
theorem raise_next {K : FaultKind} {s t : State} (h : raise K s = .next t) : t = s.faultedWith K := by
  simpa [raise] using h.symm

/-- `need(1)`: either the top is handed on, or StackUnderflow. -/
theorem withTop_next {s t : State} {k : Int → List Int → Result} (h : withTop s k = .next t) :
    (s.stk = [] ∧ t = s.faultedWith .stackUnderflow) ∨ ∃ v below, s.stk = v :: below ∧ k v below = .next t := by
  unfold withTop at h
  split at h
  · exact .inr ⟨_, _, ‹_›, h⟩
  · exact .inl ⟨‹_›, raise_next h⟩

/-- `need(2)`: either the top two are handed on, or StackUnderflow. -/
theorem withTopTwo_next {s t : State} {k : Int → Int → List Int → Result} (h : withTopTwo s k = .next t) :
    (s.sp < 2 ∧ t = s.faultedWith .stackUnderflow) ∨
      ∃ a b below, s.stk = a :: b :: below ∧ k a b below = .next t := by
  unfold withTopTwo at h
  split at h
  · exact .inr ⟨_, _, _, ‹_›, h⟩
  · rename_i hne
    refine .inl ⟨?_, raise_next h⟩
    unfold State.sp
    match hs : s.stk with
    | [] => simp
    | [_] => simp
    | a :: b :: below => exact absurd hs (hne a b below)

/-- The top of a stack that has one. -/
theorem withTop_cons {s : State} {v : Int} {below : List Int} (h : s.stk = v :: below) (k : Int → List Int → Result) :
    withTop s k = k v below := by simp [withTop, h]

theorem withTop_nil {s : State} (h : s.stk = []) (k : Int → List Int → Result) :
    withTop s k = raise .stackUnderflow s := by simp [withTop, h]

/-- The top two of a stack that has them. -/
theorem withTopTwo_cons {s : State} {a b : Int} {below : List Int} (h : s.stk = a :: b :: below)
    (k : Int → Int → List Int → Result) : withTopTwo s k = k a b below := by simp [withTopTwo, h]

theorem withTopTwo_short {s : State} (h : s.sp < 2) (k : Int → Int → List Int → Result) :
    withTopTwo s k = raise .stackUnderflow s := by
  unfold State.sp at h
  unfold withTopTwo
  split
  · rename_i hs; simp [hs] at h
  · rfl

/-- `room(1)` and the push: StackOverflow on a full stack, else the value on top and `ip` moved. -/
theorem pushAndAdvance_next {v : Int} {n : Nat} {s t : State} (h : pushAndAdvance v n s = .next t) :
    (s.cfg.stackCap ≤ s.sp ∧ t = s.faultedWith .stackOverflow) ∨
      (s.sp < s.cfg.stackCap ∧ t = (s.setStk (v :: s.stk)).advance n) := by
  unfold pushAndAdvance at h
  split at h
  · exact .inl ⟨by omega, raise_next h⟩
  · exact .inr ⟨by omega, by simpa using h.symm⟩

/-- `check_index`: MemoryIndexOutOfRange outside the declared size, else the slot is handed on. -/
theorem withSlot_next {i : Int} {s t : State} {k : Nat → Result} (h : withSlot i s k = .next t) :
    ((i < 0 ∨ (s.cfg.memSize : Int) ≤ i) ∧ t = s.faultedWith .memoryIndexOutOfRange) ∨
      (0 ≤ i ∧ i < s.cfg.memSize ∧ k i.toNat = .next t) := by
  unfold withSlot at h
  split at h
  · exact .inl ⟨by omega, raise_next h⟩
  · exact .inr ⟨by omega, by omega, h⟩

theorem withSlot_valid {i : Int} {s : State} (h0 : 0 ≤ i) (h1 : i < s.cfg.memSize) (k : Nat → Result) :
    withSlot i s k = k i.toNat := by
  rw [withSlot, if_neg (by omega)]

theorem withSlot_invalid {i : Int} {s : State} (h : i < 0 ∨ (s.cfg.memSize : Int) ≤ i) (k : Nat → Result) :
    withSlot i s k = raise .memoryIndexOutOfRange s := by
  rw [withSlot, if_pos h]

/-- `check_alloc`: UnallocatedSlot for a clear flag with `UNALLOC_POLICY = fault`, else the rest. -/
theorem ifAllocated_next {i : Nat} {s t : State} {r : Result} (h : ifAllocated i s r = .next t) :
    (s.cfg.unallocPolicy = .fault ∧ s.allocFlag i = false ∧ t = s.faultedWith .unallocatedSlot) ∨
      ((s.cfg.unallocPolicy = .zero ∨ s.allocFlag i = true) ∧ r = .next t) := by
  unfold ifAllocated at h
  split at h
  · rename_i hc; exact .inl ⟨hc.1, hc.2, raise_next h⟩
  · rename_i hc
    refine .inr ⟨?_, h⟩
    cases hp : s.cfg.unallocPolicy <;> cases hf : s.allocFlag i <;> simp_all

theorem ifAllocated_usable {i : Nat} {s : State} (h : s.cfg.unallocPolicy = .zero ∨ s.allocFlag i = true) (r : Result) :
    ifAllocated i s r = r := by
  rw [ifAllocated, if_neg (by rintro ⟨h1, h2⟩; simp_all)]

theorem ifAllocated_clear {i : Nat} {s : State} (hp : s.cfg.unallocPolicy = .fault) (hf : s.allocFlag i = false)
    (r : Result) : ifAllocated i s r = raise .unallocatedSlot s := by
  rw [ifAllocated, if_pos ⟨hp, hf⟩]

/-- `check_target`: ProgramBoundsError outside the program, else `ip` is the target. -/
theorem jumpTo_next {n : Int} {s s' t : State} (h : jumpTo n s s' = .next t) :
    ((n < 0 ∨ (s.plen : Int) ≤ n) ∧ t = s.faultedWith .programBoundsError) ∨
      (0 ≤ n ∧ n < s.plen ∧ t = s'.setIp n.toNat) := by
  unfold jumpTo at h
  split at h
  · exact .inl ⟨by omega, raise_next h⟩
  · exact .inr ⟨by omega, by omega, by simpa using h.symm⟩

/-- The shape of the binary instructions (42_arithmetic.md R120). -/
theorem binary_next {f : Int → Int → Int} {s t : State} (h : binary f s = .next t) :
    (s.sp < 2 ∧ t = s.faultedWith .stackUnderflow) ∨
      ∃ a b below, s.stk = a :: b :: below ∧ t = (s.setStk (f a b :: below)).advance 1 := by
  rcases withTopTwo_next h with h | ⟨a, b, below, hs, h⟩
  · exact .inl h
  · exact .inr ⟨a, b, below, hs, by simpa using h.symm⟩

/-- The conditional jumps (44_control.md R141, R142). -/
theorem condJump_next {taken : Int → Bool} {n : Int} {s t : State} (h : condJump taken n s = .next t) :
    (s.stk = [] ∧ t = s.faultedWith .stackUnderflow) ∨
    ∃ v below, s.stk = v :: below ∧
      ((taken v = false ∧ t = (s.setStk below).advance 2) ∨
       (taken v = true ∧ 0 ≤ n ∧ n < s.plen ∧ t = (s.setStk below).setIp n.toNat) ∨
       (taken v = true ∧ (n < 0 ∨ (s.plen : Int) ≤ n) ∧ t = s.faultedWith .programBoundsError)) := by
  rcases withTop_next h with h | ⟨v, below, hs, h⟩
  · exact .inl h
  · refine .inr ⟨v, below, hs, ?_⟩
    split at h
    · rename_i ht
      rcases jumpTo_next h with ⟨hr, rfl⟩ | ⟨h0, h1, rfl⟩
      · exact .inr (.inr ⟨ht, hr, rfl⟩)
      · exact .inr (.inl ⟨ht, h0, h1, rfl⟩)
    · rename_i ht
      exact .inl ⟨by simpa using ht, by simpa using h.symm⟩

end Sys2Proof.Machine
end

