-- ==== Sys2Proof/Laws/Word.lean ====
section
/-! SUPPORT. The integer laws of the ALU: `wrap` (00_scope.md R8, 42_arithmetic.md R121) and the bit patterns of
cells (00_scope.md R7). -/

namespace Sys2Proof.Machine

/-- `2^w` is twice `2^(w-1)`, the fact that every bound here rests on. -/
theorem two_pow_split {w : Nat} (hw : 1 ≤ w) : 2 ^ w = 2 * 2 ^ (w - 1) := by
  obtain ⟨k, rfl⟩ : ∃ k, w = k + 1 := ⟨w - 1, by omega⟩
  simp [Nat.pow_succ, Nat.mul_comm]

theorem two_pow_pos (w : Nat) : 0 < 2 ^ w := Nat.pow_pos (by decide)

theorem bitsOfCell_lt (w : Nat) (n : Int) : bitsOfCell w n < 2 ^ w := by
  have h := Int.emod_lt_of_pos n (b := ((2 ^ w : Nat) : Int)) (by exact_mod_cast two_pow_pos w)
  have h0 := Int.emod_nonneg n (b := ((2 ^ w : Nat) : Int)) (by have := two_pow_pos w; omega)
  unfold bitsOfCell; omega

theorem bitsOfCell_cast (w : Nat) (n : Int) : (bitsOfCell w n : Int) = n % ((2 ^ w : Nat) : Int) :=
  Int.toNat_of_nonneg (Int.emod_nonneg n (by have := two_pow_pos w; omega))

/-- `sext` of a pattern of `w` bits is the cell of that pattern. -/
theorem sextBits_of_lt {w b : Nat} (hb : b < 2 ^ w) :
    sextBits w b = if b < 2 ^ (w - 1) then (b : Int) else (b : Int) - ((2 ^ w : Nat) : Int) := by
  simp [sextBits, zextBits, Nat.mod_eq_of_lt hb]

theorem sextBits_isCell {w : Nat} (hw : 1 ≤ w) (b : Nat) : isCell w (sextBits w b) := by
  have h2 := two_pow_split hw
  have hlt : zextBits w b < 2 ^ w := Nat.mod_lt _ (two_pow_pos w)
  unfold isCell intMin intMax sextBits
  generalize zextBits w b = z at *
  generalize 2 ^ (w - 1) = half at *
  generalize 2 ^ w = full at *
  split <;> omega

/-- Reading a cell's own bit pattern gives the cell back (00_scope.md R7). -/
theorem sextBits_bitsOfCell {w : Nat} (hw : 1 ≤ w) {v : Int} (hv : isCell w v) :
    sextBits w (bitsOfCell w v) = v := by
  have h2 := two_pow_split hw
  have hb := bitsOfCell_lt w v
  have hc := bitsOfCell_cast w v
  obtain ⟨lo, hi⟩ := hv
  unfold intMin at lo
  unfold intMax at hi
  rw [sextBits_of_lt hb]
  generalize bitsOfCell w v = b at *
  generalize 2 ^ (w - 1) = half at *
  generalize 2 ^ w = full at *
  rcases Int.lt_or_le v 0 with hneg | hpos
  · have : v % (full : Int) = v + (full : Int) := by
      rw [← Int.add_emod_right]; exact Int.emod_eq_of_lt (by omega) (by omega)
    split <;> omega
  · have : v % (full : Int) = v := Int.emod_eq_of_lt hpos (by omega)
    split <;> omega

theorem wrap_isCell {w : Nat} (hw : 1 ≤ w) (n : Int) : isCell w (wrap w n) := sextBits_isCell hw _

/-- `wrap` depends on its argument modulo `2^w` alone. -/
theorem wrap_congr {w : Nat} {m n : Int} (h : m % ((2 ^ w : Nat) : Int) = n % ((2 ^ w : Nat) : Int)) :
    wrap w m = wrap w n := by
  rw [wrap, wrap, bitsOfCell, bitsOfCell, h]

/-- A cell wraps to itself. -/
theorem wrap_of_isCell {w : Nat} (hw : 1 ≤ w) {v : Int} (hv : isCell w v) : wrap w v = v :=
  sextBits_bitsOfCell hw hv

/-- `wrap(n)` is congruent to `n`. -/
theorem wrap_emod (w : Nat) (n : Int) : wrap w n % ((2 ^ w : Nat) : Int) = n % ((2 ^ w : Nat) : Int) := by
  have hc := bitsOfCell_cast w n
  rw [wrap, sextBits_of_lt (bitsOfCell_lt w n)]
  split
  · rw [hc, Int.emod_emod]
  · rw [Int.sub_emod_right, hc, Int.emod_emod]

/-- In a legal configuration the width is positive (00_scope.md R5). -/
theorem width_pos {c : Config} (h : c.Legal) : 1 ≤ c.width := by have := h.1; omega

/-- 0 and 1 are cells of every legal width. -/
theorem isCell_small {w : Nat} (hw : 6 ≤ w) {v : Int} (h0 : 0 ≤ v) (h1 : v ≤ 1) : isCell w v := by
  have h : 2 ^ 5 ≤ 2 ^ (w - 1) := Nat.pow_le_pow_right (by decide) (by omega)
  unfold isCell intMin intMax
  generalize 2 ^ (w - 1) = half at *
  omega

end Sys2Proof.Machine
end

