-- ==== Sys2Proof/Laws/Exec.lean ====
section
/-! SUPPORT. What an instruction can do, said once for all 19: it raises one of its own faults, or it has its own
effect, under the conditions that let it (60_exceptions.md R178, 40_execution_loop.md R94). -/

namespace Sys2Proof.Machine

/-! Each instruction over the shared operations: what `exec` answers, ready to rewrite with. -/

theorem exec_push (v : Int) (s : State) : exec (.push v) s = pushAndAdvance v 2 s := rfl
theorem exec_pop (s : State) : exec .pop s = withTop s fun _ below => .next ((s.setStk below).advance 1) := rfl
theorem exec_dup (s : State) : exec .dup s = withTop s fun v _ => pushAndAdvance v 1 s := rfl
theorem exec_swap (s : State) :
    exec .swap s = withTopTwo s fun a b below => .next ((s.setStk (b :: a :: below)).advance 1) := rfl
theorem exec_add (s : State) : exec .add s = binary (fun a b => wrap s.cfg.width (a + b)) s := rfl
theorem exec_sub (s : State) : exec .sub s = binary (fun a b => wrap s.cfg.width (b - a)) s := rfl
theorem exec_mul (s : State) : exec .mul s = binary (fun a b => wrap s.cfg.width (a * b)) s := rfl
theorem exec_div (s : State) :
    exec .div s = withTopTwo s fun a b below =>
      if a = 0 then raise .divisionByZero s
      else .next ((s.setStk (wrap s.cfg.width (Int.tdiv 1 a * b) :: below)).advance 1) := rfl
theorem exec_print (s : State) : exec .print s = withTop s fun v _ => .next ((s.emit v).advance 1) := rfl
theorem exec_jmp (n : Int) (s : State) : exec (.jmp n) s = jumpTo n s s := rfl
theorem exec_jz (n : Int) (s : State) : exec (.jz n) s = condJump takenJz n s := rfl
theorem exec_jnz (n : Int) (s : State) : exec (.jnz n) s = condJump takenJnz n s := rfl
theorem exec_eq (s : State) : exec .eq s = binary (fun a b => condCell (condEq a b)) s := rfl
theorem exec_lt (s : State) : exec .lt s = binary (fun a b => condCell (condLt a b)) s := rfl
theorem exec_gt (s : State) : exec .gt s = binary (fun a b => condCell (condGt a b)) s := rfl
theorem exec_alloc (i : Int) (s : State) :
    exec (.alloc i) s = withSlot i s fun n => .next (((s.writeSlot n 0).setAlloc n).advance 2) := rfl
theorem exec_load (i : Int) (s : State) :
    exec (.load i) s = withSlot i s fun n => ifAllocated n s
      (match s.readSlot n with
        | some v => pushAndAdvance v 2 s
        | none => .fault .slotHoldsNoValue) := rfl
theorem exec_store (i : Int) (s : State) :
    exec (.store i) s = withTop s fun v below => withSlot i s fun n =>
      ifAllocated n s (.next (((s.writeSlot n v).setStk below).advance 2)) := rfl
theorem exec_halt (s : State) : exec .halt s = .next s.halt := rfl

/-- The effect of an instruction that passes its checks, with those checks. -/
def Effect (s t : State) : Instr → Prop
  | .push v => s.sp < s.cfg.stackCap ∧ t = (s.setStk (v :: s.stk)).advance 2
  | .pop => ∃ v below, s.stk = v :: below ∧ t = (s.setStk below).advance 1
  | .add => ∃ a b below, s.stk = a :: b :: below ∧ t = (s.setStk (wrap s.cfg.width (a + b) :: below)).advance 1
  | .sub => ∃ a b below, s.stk = a :: b :: below ∧ t = (s.setStk (wrap s.cfg.width (b - a) :: below)).advance 1
  | .mul => ∃ a b below, s.stk = a :: b :: below ∧ t = (s.setStk (wrap s.cfg.width (a * b) :: below)).advance 1
  | .div => ∃ a b below, s.stk = a :: b :: below ∧ a ≠ 0 ∧
      t = (s.setStk (wrap s.cfg.width (Int.tdiv 1 a * b) :: below)).advance 1
  | .dup => ∃ v below, s.stk = v :: below ∧ s.sp < s.cfg.stackCap ∧ t = (s.setStk (v :: s.stk)).advance 1
  | .swap => ∃ a b below, s.stk = a :: b :: below ∧ t = (s.setStk (b :: a :: below)).advance 1
  | .print => ∃ v below, s.stk = v :: below ∧ t = (s.emit v).advance 1
  | .jmp n => 0 ≤ n ∧ n < s.plen ∧ t = s.setIp n.toNat
  | .jz n => ∃ v below, s.stk = v :: below ∧ ((v ≠ 0 ∧ t = (s.setStk below).advance 2) ∨
      (v = 0 ∧ 0 ≤ n ∧ n < s.plen ∧ t = (s.setStk below).setIp n.toNat))
  | .jnz n => ∃ v below, s.stk = v :: below ∧ ((v = 0 ∧ t = (s.setStk below).advance 2) ∨
      (v ≠ 0 ∧ 0 ≤ n ∧ n < s.plen ∧ t = (s.setStk below).setIp n.toNat))
  | .eq => ∃ a b below, s.stk = a :: b :: below ∧ t = (s.setStk (condCell (condEq a b) :: below)).advance 1
  | .lt => ∃ a b below, s.stk = a :: b :: below ∧ t = (s.setStk (condCell (condLt a b) :: below)).advance 1
  | .gt => ∃ a b below, s.stk = a :: b :: below ∧ t = (s.setStk (condCell (condGt a b) :: below)).advance 1
  | .alloc n => 0 ≤ n ∧ n < s.cfg.memSize ∧ t = ((s.writeSlot n.toNat 0).setAlloc n.toNat).advance 2
  | .load n => 0 ≤ n ∧ n < s.cfg.memSize ∧ (s.cfg.unallocPolicy = .zero ∨ s.allocFlag n.toNat = true) ∧
      ∃ v, s.readSlot n.toNat = some v ∧ s.sp < s.cfg.stackCap ∧ t = (s.setStk (v :: s.stk)).advance 2
  | .store n => ∃ v below, s.stk = v :: below ∧ 0 ≤ n ∧ n < s.cfg.memSize ∧
      (s.cfg.unallocPolicy = .zero ∨ s.allocFlag n.toNat = true) ∧
      t = ((s.writeSlot n.toNat v).setStk below).advance 2
  | .halt => t = s.halt

/-- An instruction that answers a next state has raised one of its own faults or had its effect. -/
theorem exec_next {i : Instr} {s t : State} (h : exec i s = .next t) :
    (∃ K ∈ i.mnemonic.faultKinds, t = s.faultedWith K) ∨ Effect s t i := by
  cases i with
  | push v =>
    rcases pushAndAdvance_next h with ⟨_, rfl⟩ | he
    · exact .inl ⟨_, by simp [Instr.mnemonic, Mnemonic.faultKinds], rfl⟩
    · exact .inr he
  | pop =>
    rcases withTop_next h with ⟨_, rfl⟩ | ⟨v, below, hs, h⟩
    · exact .inl ⟨_, by simp [Instr.mnemonic, Mnemonic.faultKinds], rfl⟩
    · exact .inr ⟨v, below, hs, by simpa using h.symm⟩
  | dup =>
    rcases withTop_next h with ⟨_, rfl⟩ | ⟨v, below, hs, h⟩
    · exact .inl ⟨_, by simp [Instr.mnemonic, Mnemonic.faultKinds], rfl⟩
    · rcases pushAndAdvance_next h with ⟨_, rfl⟩ | ⟨hr, rfl⟩
      · exact .inl ⟨_, by simp [Instr.mnemonic, Mnemonic.faultKinds], rfl⟩
      · exact .inr ⟨v, below, hs, hr, rfl⟩
  | swap =>
    rcases withTopTwo_next h with ⟨_, rfl⟩ | ⟨a, b, below, hs, h⟩
    · exact .inl ⟨_, by simp [Instr.mnemonic, Mnemonic.faultKinds], rfl⟩
    · exact .inr ⟨a, b, below, hs, by simpa using h.symm⟩
  | div =>
    rcases withTopTwo_next h with ⟨_, rfl⟩ | ⟨a, b, below, hs, h⟩
    · exact .inl ⟨_, by simp [Instr.mnemonic, Mnemonic.faultKinds], rfl⟩
    · split at h
      · exact .inl ⟨.divisionByZero, by simp [Instr.mnemonic, Mnemonic.faultKinds], raise_next h⟩
      · exact .inr ⟨a, b, below, hs, ‹_›, by simpa using h.symm⟩
  | print =>
    rcases withTop_next h with ⟨_, rfl⟩ | ⟨v, below, hs, h⟩
    · exact .inl ⟨_, by simp [Instr.mnemonic, Mnemonic.faultKinds], rfl⟩
    · exact .inr ⟨v, below, hs, by simpa using h.symm⟩
  | jmp n =>
    rcases jumpTo_next h with ⟨_, rfl⟩ | he
    · exact .inl ⟨_, by simp [Instr.mnemonic, Mnemonic.faultKinds], rfl⟩
    · exact .inr he
  | jz n =>
    rcases condJump_next h with ⟨_, rfl⟩ | ⟨v, below, hs, ⟨hv, rfl⟩ | ⟨hv, h0, h1, rfl⟩ | ⟨_, _, rfl⟩⟩
    · exact .inl ⟨_, by simp [Instr.mnemonic, Mnemonic.faultKinds], rfl⟩
    · exact .inr ⟨v, below, hs, .inl ⟨by simpa [takenJz] using hv, rfl⟩⟩
    · exact .inr ⟨v, below, hs, .inr ⟨by simpa [takenJz] using hv, h0, h1, rfl⟩⟩
    · exact .inl ⟨.programBoundsError, by simp [Instr.mnemonic, Mnemonic.faultKinds], rfl⟩
  | jnz n =>
    rcases condJump_next h with ⟨_, rfl⟩ | ⟨v, below, hs, ⟨hv, rfl⟩ | ⟨hv, h0, h1, rfl⟩ | ⟨_, _, rfl⟩⟩
    · exact .inl ⟨_, by simp [Instr.mnemonic, Mnemonic.faultKinds], rfl⟩
    · exact .inr ⟨v, below, hs, .inl ⟨by simpa [takenJnz] using hv, rfl⟩⟩
    · exact .inr ⟨v, below, hs, .inr ⟨by simpa [takenJnz] using hv, h0, h1, rfl⟩⟩
    · exact .inl ⟨.programBoundsError, by simp [Instr.mnemonic, Mnemonic.faultKinds], rfl⟩
  | alloc n =>
    rw [exec_alloc] at h
    rcases withSlot_next h with ⟨_, rfl⟩ | ⟨h0, h1, h⟩
    · exact .inl ⟨_, by simp [Instr.mnemonic, Mnemonic.faultKinds], rfl⟩
    · exact .inr ⟨h0, h1, by simpa using h.symm⟩
  | load n =>
    rw [exec_load] at h
    rcases withSlot_next h with ⟨_, rfl⟩ | ⟨h0, h1, h⟩
    · exact .inl ⟨_, by simp [Instr.mnemonic, Mnemonic.faultKinds], rfl⟩
    · rcases ifAllocated_next h with ⟨_, _, rfl⟩ | ⟨hu, h⟩
      · exact .inl ⟨.unallocatedSlot, by simp [Instr.mnemonic, Mnemonic.faultKinds], rfl⟩
      · split at h
        · rename_i v hv
          rcases pushAndAdvance_next h with ⟨_, rfl⟩ | ⟨hr, rfl⟩
          · exact .inl ⟨.stackOverflow, by simp [Instr.mnemonic, Mnemonic.faultKinds], rfl⟩
          · exact .inr ⟨h0, h1, hu, v, hv, hr, rfl⟩
        · cases h
  | store n =>
    rcases withTop_next h with ⟨_, rfl⟩ | ⟨v, below, hs, h⟩
    · exact .inl ⟨_, by simp [Instr.mnemonic, Mnemonic.faultKinds], rfl⟩
    · rcases withSlot_next h with ⟨_, rfl⟩ | ⟨h0, h1, h⟩
      · exact .inl ⟨.memoryIndexOutOfRange, by simp [Instr.mnemonic, Mnemonic.faultKinds], rfl⟩
      · rcases ifAllocated_next h with ⟨_, _, rfl⟩ | ⟨hu, h⟩
        · exact .inl ⟨.unallocatedSlot, by simp [Instr.mnemonic, Mnemonic.faultKinds], rfl⟩
        · exact .inr ⟨v, below, hs, h0, h1, hu, by simpa using h.symm⟩
  | halt => exact .inr (by simpa [exec_halt, Effect] using h.symm)
  | add | sub | mul | eq | lt | gt =>
    rcases binary_next h with ⟨_, rfl⟩ | he
    · exact .inl ⟨_, by simp [Instr.mnemonic, Mnemonic.faultKinds], rfl⟩
    · exact .inr he

/-- An effect never writes the configuration, the program, `ferr` or, but for HALT, `status`. -/
theorem Effect.constants {s t : State} {i : Instr} (h : Effect s t i) :
    t.cfg = s.cfg ∧ t.prog = s.prog ∧ t.ferr = s.ferr ∧ (t.status = s.status ∨ (i = .halt ∧ t.status = .halted)) := by
  cases i with
  | push =>
    obtain ⟨_, rfl⟩ := h
    exact ⟨rfl, rfl, rfl, .inl rfl⟩
  | pop | print =>
    obtain ⟨_, _, _, rfl⟩ := h
    exact ⟨rfl, rfl, rfl, .inl rfl⟩
  | add | sub | mul | swap | eq | lt | gt | dup =>
    obtain ⟨_, _, _, _, rfl⟩ := h
    exact ⟨rfl, rfl, rfl, .inl rfl⟩
  | div =>
    obtain ⟨_, _, _, _, _, rfl⟩ := h
    exact ⟨rfl, rfl, rfl, .inl rfl⟩
  | jmp | alloc =>
    obtain ⟨_, _, rfl⟩ := h
    exact ⟨rfl, rfl, rfl, .inl rfl⟩
  | jz | jnz =>
    obtain ⟨_, _, _, ⟨_, rfl⟩ | ⟨_, _, _, rfl⟩⟩ := h <;> exact ⟨rfl, rfl, rfl, .inl rfl⟩
  | load =>
    obtain ⟨_, _, _, _, _, _, rfl⟩ := h
    exact ⟨rfl, rfl, rfl, .inl rfl⟩
  | store =>
    obtain ⟨_, _, _, _, _, _, rfl⟩ := h
    exact ⟨rfl, rfl, rfl, .inl rfl⟩
  | halt =>
    cases h
    exact ⟨rfl, rfl, rfl, .inr ⟨rfl, rfl⟩⟩

end Sys2Proof.Machine
end

