-- ==== Sys2Proof/Laws/PerInstr.lean ====
section
/-! SUPPORT. Facts of each instruction as syntax, one lemma for each constructor (LAWS.json, per_instruction). -/

namespace Sys2Proof.Laws.EncodedLength

/-- An instruction occupies as many cells as the opcode map's column "cells" gives its mnemonic (30_encoding.md
R74), one more than its operands. -/
def Statement (i : Instr) : Prop :=
  ∀ c : Config, (encode c i).length = i.mnemonic.cells ∧ i.mnemonic.cells = 1 + i.operand?.toList.length

theorem push (v : Int) : Statement (.push v) := fun _ => ⟨rfl, rfl⟩
theorem pop : Statement .pop := fun _ => ⟨rfl, rfl⟩
theorem add : Statement .add := fun _ => ⟨rfl, rfl⟩
theorem sub : Statement .sub := fun _ => ⟨rfl, rfl⟩
theorem mul : Statement .mul := fun _ => ⟨rfl, rfl⟩
theorem div : Statement .div := fun _ => ⟨rfl, rfl⟩
theorem dup : Statement .dup := fun _ => ⟨rfl, rfl⟩
theorem swap : Statement .swap := fun _ => ⟨rfl, rfl⟩
theorem print : Statement .print := fun _ => ⟨rfl, rfl⟩
theorem jmp (v : Int) : Statement (.jmp v) := fun _ => ⟨rfl, rfl⟩
theorem jz (v : Int) : Statement (.jz v) := fun _ => ⟨rfl, rfl⟩
theorem jnz (v : Int) : Statement (.jnz v) := fun _ => ⟨rfl, rfl⟩
theorem eq : Statement .eq := fun _ => ⟨rfl, rfl⟩
theorem lt : Statement .lt := fun _ => ⟨rfl, rfl⟩
theorem gt : Statement .gt := fun _ => ⟨rfl, rfl⟩
theorem alloc (v : Int) : Statement (.alloc v) := fun _ => ⟨rfl, rfl⟩
theorem load (v : Int) : Statement (.load v) := fun _ => ⟨rfl, rfl⟩
theorem store (v : Int) : Statement (.store v) := fun _ => ⟨rfl, rfl⟩
theorem halt : Statement .halt := fun _ => ⟨rfl, rfl⟩
end Sys2Proof.Laws.EncodedLength

namespace Sys2Proof.Laws.ReferenceOpcode

/-- In the reference configuration an instruction's first cell is its row's number in the opcode table
(30_encoding.md R74), which is its mnemonic's place in the table. -/
def Statement (i : Instr) : Prop :=
  (encode Machine.referenceConfig i).head? = (Mnemonic.all.idxOf? i.mnemonic).map fun n : Nat => (n : Int)

theorem push (v : Int) : Statement (.push v) := rfl
theorem pop : Statement .pop := rfl
theorem add : Statement .add := rfl
theorem sub : Statement .sub := rfl
theorem mul : Statement .mul := rfl
theorem div : Statement .div := rfl
theorem dup : Statement .dup := rfl
theorem swap : Statement .swap := rfl
theorem print : Statement .print := rfl
theorem jmp (v : Int) : Statement (.jmp v) := rfl
theorem jz (v : Int) : Statement (.jz v) := rfl
theorem jnz (v : Int) : Statement (.jnz v) := rfl
theorem eq : Statement .eq := rfl
theorem lt : Statement .lt := rfl
theorem gt : Statement .gt := rfl
theorem alloc (v : Int) : Statement (.alloc v) := rfl
theorem load (v : Int) : Statement (.load v) := rfl
theorem store (v : Int) : Statement (.store v) := rfl
theorem halt : Statement .halt := rfl
end Sys2Proof.Laws.ReferenceOpcode
end

