-- ==== Sys2Proof/Laws/Step.lean ====
section
/-! SUPPORT. What a step can do, said once (40_execution_loop.md R90 to R95), and the facts of its fetch. -/

namespace Sys2Proof.Machine

/-- Outside Running the core has no step (40_execution_loop.md R98). -/
theorem step_terminal {s : State} (h : s.status ≠ .running) : step s = .fault .coreStopped := by
  unfold step loopStep
  cases hs : s.status
  · exact absurd hs h
  · rfl
  · rfl

theorem step_running {s : State} (h : s.status = .running) : step s = runningStep s := by
  rw [step, loopStep, h]

/-- A step that answers a next state was taken from Running. -/
theorem running_of_step {s t : State} (h : step s = .next t) : s.status = .running := by
  by_cases hr : s.status = .running
  · exact hr
  · rw [step_terminal hr] at h; cases h

/-- Nothing is left to fetch exactly at the end of the program (40_execution_loop.md R91). -/
theorem drop_ip_eq_nil {s : State} : s.prog.drop s.ip = [] ↔ s.plen ≤ s.ip := by
  simp [State.plen]

/-- The opcode cell is the first of the cells from `ip` on. -/
theorem opcode_cell {s : State} {v : Int} {rest : List Int} (h : s.prog.drop s.ip = v :: rest) :
    s.prog[s.ip]? = some v := by
  have := congrArg (·[0]?) h
  simpa using this

/-- What a fetched instruction says of the program: its opcode cell stands at `ip`, and all its cells inside. -/
theorem fetch_instr {s : State} {i : Instr} {rest : List Int} (h : fetch s = .instr i rest) :
    (∃ v, s.prog[s.ip]? = some v ∧ s.cfg.opc.mnemonicOf v = some i.mnemonic) ∧ s.ip + i.mnemonic.cells ≤ s.plen := by
  obtain ⟨v, hd, hm⟩ := decode_instr h
  refine ⟨⟨v, opcode_cell hd, hm⟩, ?_⟩
  have hl := congrArg List.length hd
  have hn : (i.operand?.toList).length + 1 = i.mnemonic.cells := by cases i <;> rfl
  simp only [List.length_drop, List.length_cons, List.length_append] at hl
  unfold State.plen
  omega

/-- Everything a step can do from Running: it halts at the end of the program, it faults in the fetch with `ip`
inside the program, or it executes the instruction at `ip`. -/
theorem step_next {s t : State} (h : step s = .next t) :
    s.status = .running ∧
      ((s.plen ≤ s.ip ∧ t = s.halt) ∨
       (s.ip < s.plen ∧ (t = s.faultedWith .unknownInstruction ∨ t = s.faultedWith .programBoundsError) ∧
          ∃ e, fetch s = .rejected e) ∨
       (∃ i rest, fetch s = .instr i rest ∧ exec i s = .next t)) := by
  have hr := running_of_step h
  refine ⟨hr, ?_⟩
  rw [step_running hr, runningStep] at h
  split at h
  · rename_i i rest hf
    exact .inr (.inr ⟨i, rest, hf, h⟩)
  · rename_i e hf
    rcases decode_rejected hf with ⟨rfl, hd⟩ | ⟨v, rest, rfl, hd, _⟩ | ⟨v, m, rfl, hd, _⟩
    · exact .inl ⟨drop_ip_eq_nil.mp hd, by simpa [fetchFailed] using h.symm⟩
    · refine .inr (.inl ⟨?_, .inl (raise_next h), _, hf⟩)
      have := mt drop_ip_eq_nil.mpr (by rw [hd]; simp)
      omega
    · refine .inr (.inl ⟨?_, .inr (raise_next h), _, hf⟩)
      have := mt drop_ip_eq_nil.mpr (by rw [hd]; simp)
      omega

/-- A step writes neither the configuration nor the program. -/
theorem exec_constants {i : Instr} {s t : State} (h : exec i s = .next t) : t.cfg = s.cfg ∧ t.prog = s.prog := by
  rcases exec_next h with ⟨K, _, rfl⟩ | he
  · exact ⟨rfl, rfl⟩
  · exact ⟨he.constants.1, he.constants.2.1⟩

end Sys2Proof.Machine
end

