-- ==== Sys2Proof/Tests/Slice0.lean ====
section
/-! SUPPORT. Tests of one step each, with the expected results of 95_test_vectors.md (V1 to V129) and of the
instruction rules' own examples; the words of spec/opcode_table.json written out; the well-formedness smoke test;
and a witness for the hypotheses of each statement. -/

namespace Sys2Proof.Tests

open Sys2Proof.Machine

/-- A Running state of the reference configuration at `ip = 0`; the stack is given top first. -/
def ref (prog stk : List Int) : State := { State.initial referenceConfig prog with stk := stk }

/-- The same with `STACK_CAP = 2`. -/
def small (prog stk : List Int) : State :=
  { State.initial { referenceConfig with stackCap := 2 } prog with stk := stk }

/-- The same with `UNALLOC_POLICY = zero`. -/
def zeroed (prog stk : List Int) : State :=
  { State.initial { referenceConfig with unallocPolicy := .zero } prog with stk := stk }

/-- Slot 0 allocated and holding `v`. -/
def withSlot0 (v : Int) (s : State) : State := { s with mem := [(0, v)], alloc := [0] }

/-- What the step tests compare of a state. -/
structure View where
  stk : List Int
  ip : Nat
  status : Status
  ferr : Option FaultKind
  out : List Int
  deriving DecidableEq, Repr

/-- What a step leaves of a state: stack, `ip`, `status`, `ferr`, `out`. -/
def view (r : Result) : Option View :=
  match r with
  | .next t => some ⟨t.stk, t.ip, t.status, t.ferr, t.out⟩
  | .fault _ => none
  | .refused _ => none

/-- Slot `i`'s value and flag after a step. -/
def slotAfter (i : Nat) (r : Result) : Option (Option Int × Bool) :=
  match r with
  | .next t => some (t.readSlot i, t.allocFlag i)
  | .fault _ => none
  | .refused _ => none

/-! Decoding: every row's word, written from 30_encoding.md R71 and R74, with the operand cell in bits 63..32 (the
model's choice, log entry 21). -/

theorem test_decode_stack :
    decodeTableWord 64 0x0000000700000000 = some (.push 7) ∧ decodeTableWord 32 0x00000001 = some .pop ∧
      decodeTableWord 32 0x00000006 = some .dup ∧ decodeTableWord 32 0x00000007 = some .swap := by decide

theorem test_decode_arithmetic :
    decodeTableWord 32 0x00000002 = some .add ∧ decodeTableWord 32 0x00000003 = some .sub ∧
      decodeTableWord 32 0x00000004 = some .mul ∧ decodeTableWord 32 0x00000005 = some .div := by decide

theorem test_decode_output_halt :
    decodeTableWord 32 0x00000008 = some .print ∧ decodeTableWord 32 0x00000012 = some .halt := by decide

theorem test_decode_control :
    decodeTableWord 64 0x0000000300000009 = some (.jmp 3) ∧ decodeTableWord 64 0xFFFFFFFF0000000A = some (.jz (-1)) ∧
      decodeTableWord 64 0x000003E80000000B = some (.jnz 1000) := by decide

theorem test_decode_compare :
    decodeTableWord 32 0x0000000C = some .eq ∧ decodeTableWord 32 0x0000000D = some .lt ∧
      decodeTableWord 32 0x0000000E = some .gt := by decide

theorem test_decode_varmem :
    decodeTableWord 64 0x000000FF0000000F = some (.alloc 255) ∧ decodeTableWord 64 0x0000000000000010 = some (.load 0) ∧
      decodeTableWord 64 0x8000000000000011 = some (.store (-2147483648)) := by decide

/-- 30_encoding.md R76: 19, 255, -1 and INT_MIN are no opcodes; R72: a truncated PUSH is rejected by its own name. -/
theorem test_decode_rejects :
    decode referenceConfig [19] = .rejected (.unknownOpcode 19) ∧
      decode referenceConfig [255] = .rejected (.unknownOpcode 255) ∧
      decode referenceConfig [-1] = .rejected (.unknownOpcode (-1)) ∧
      decode referenceConfig [-2147483648] = .rejected (.unknownOpcode (-2147483648)) ∧
      decode referenceConfig [0] = .rejected (.missingOperand .push) ∧
      decode referenceConfig [] = .rejected .noCell := by decide

/-- 95_test_vectors.md P1: the cells of its listing. -/
theorem test_encode_listing :
    encodeProgram referenceConfig [.alloc 0, .alloc 1, .push 2, .store 0, .push 3, .store 1, .load 0, .load 1, .add,
      .print, .halt] = [15, 0, 15, 1, 0, 2, 17, 0, 0, 3, 17, 1, 16, 0, 16, 1, 2, 8, 18] := by decide

/-! Well-formedness: each operand's check refuses a value that is no cell and admits the ends of the range. -/

theorem test_wf_refuses_push : ¬ (Instr.push 2147483648).WellFormed referenceConfig := by decide
theorem test_wf_refuses_jmp : ¬ (Instr.jmp (-2147483649)).WellFormed referenceConfig := by decide
theorem test_wf_refuses_jz : ¬ (Instr.jz 2147483648).WellFormed referenceConfig := by decide
theorem test_wf_refuses_jnz : ¬ (Instr.jnz (-2147483649)).WellFormed referenceConfig := by decide
theorem test_wf_refuses_alloc : ¬ (Instr.alloc 2147483648).WellFormed referenceConfig := by decide
theorem test_wf_refuses_load : ¬ (Instr.load (-2147483649)).WellFormed referenceConfig := by decide
theorem test_wf_refuses_store : ¬ (Instr.store 2147483648).WellFormed referenceConfig := by decide
theorem test_wf_admits_ends :
    (Instr.push 2147483647).WellFormed referenceConfig ∧ (Instr.store (-2147483648)).WellFormed referenceConfig := by
  decide

/-! One step of each instruction (95_test_vectors.md, part B). -/

/-- V3, V5. -/
theorem test_push :
    view (step (ref [0, -2147483648] [])) = some ⟨[-2147483648], 2, .running, none, []⟩ ∧
      view (step (small [0, 9] [2, 1])) = some ⟨[2, 1], 0, .faulted, some .stackOverflow, []⟩ := by decide

/-- V6: the operand fetch is tested before the stack's room. -/
theorem test_push_truncated :
    view (step (small [0] [2, 1])) = some ⟨[2, 1], 0, .faulted, some .programBoundsError, []⟩ := by decide

/-- V8, V9. -/
theorem test_pop :
    view (step (ref [1] [7, 3])) = some ⟨[3], 1, .running, none, []⟩ ∧
      view (step (ref [1] [])) = some ⟨[], 0, .faulted, some .stackUnderflow, []⟩ := by decide

/-- V10, V12. -/
theorem test_dup :
    view (step (ref [6] [7, 3])) = some ⟨[7, 7, 3], 1, .running, none, []⟩ ∧
      view (step (small [6] [2, 1])) = some ⟨[2, 1], 0, .faulted, some .stackOverflow, []⟩ := by decide

/-- V13, V14. -/
theorem test_swap :
    view (step (ref [7] [7, 3, 1])) = some ⟨[3, 7, 1], 1, .running, none, []⟩ ∧
      view (step (ref [7] [5])) = some ⟨[5], 0, .faulted, some .stackUnderflow, []⟩ := by decide

/-- V23, V26. -/
theorem test_add :
    view (step (ref [2] [-1, -2147483648])) = some ⟨[2147483647], 1, .running, none, []⟩ ∧
      view (step (ref [2] [3, 2, 1])) = some ⟨[5, 1], 1, .running, none, []⟩ := by decide

/-- V27, V29. -/
theorem test_sub :
    view (step (ref [3] [3, 5])) = some ⟨[2], 1, .running, none, []⟩ ∧
      view (step (ref [3] [-2147483648, 0])) = some ⟨[-2147483648], 1, .running, none, []⟩ := by decide

/-- V34, V38. -/
theorem test_mul :
    view (step (ref [4] [4, -3])) = some ⟨[-12], 1, .running, none, []⟩ ∧
      view (step (ref [4] [46341, 46341])) = some ⟨[-2147479015], 1, .running, none, []⟩ := by decide

/-- V41, V43, V44. -/
theorem test_div :
    view (step (ref [5] [2, 8])) = some ⟨[0], 1, .running, none, []⟩ ∧
      view (step (ref [5] [-1, 8])) = some ⟨[-8], 1, .running, none, []⟩ ∧
      view (step (ref [5] [-2, 8])) = some ⟨[0], 1, .running, none, []⟩ := by decide

/-- V47, V50. -/
theorem test_div_faults :
    view (step (ref [5] [0, 5])) = some ⟨[0, 5], 0, .faulted, some .divisionByZero, []⟩ ∧
      view (step (ref [5] [0])) = some ⟨[0], 0, .faulted, some .stackUnderflow, []⟩ := by decide

/-- V55. -/
theorem test_print :
    view (step { ref [8] [5, 2] with out := [1] }) = some ⟨[5, 2], 1, .running, none, [1, 5]⟩ := by decide

/-- V57, V58: the text form, its characters as ASCII bytes (log entry 26). -/
theorem test_print_text :
    cellText (-2147483648) = [0x2D, 0x32, 0x31, 0x34, 0x37, 0x34, 0x38, 0x33, 0x36, 0x34, 0x38, 0x0A] ∧
      cellText 0 = [0x30, 0x0A] ∧ cellText 10 = [0x31, 0x30, 0x0A] := by decide

/-- V60, V62. -/
theorem test_jmp :
    view (step (ref [9, 3, 8, 18] [])) = some ⟨[], 3, .running, none, []⟩ ∧
      view (step (ref [9, 2] [])) = some ⟨[], 0, .faulted, some .programBoundsError, []⟩ := by decide

/-- V66, V68, V69. -/
theorem test_jz :
    view (step (ref [10, 3, 8, 18] [0, 4])) = some ⟨[4], 3, .running, none, []⟩ ∧
      view (step (ref [10, 1000, 18] [1])) = some ⟨[], 2, .running, none, []⟩ ∧
      view (step (ref [10, 1000, 18] [0])) = some ⟨[0], 0, .faulted, some .programBoundsError, []⟩ := by decide

/-- V72, V73, V74. -/
theorem test_jnz :
    view (step (ref [11, 3, 8, 18] [-1])) = some ⟨[], 3, .running, none, []⟩ ∧
      view (step (ref [11, 3, 8, 18] [0])) = some ⟨[], 2, .running, none, []⟩ ∧
      view (step (ref [11, 2] [5])) = some ⟨[5], 0, .faulted, some .programBoundsError, []⟩ := by decide

/-- V80, V81. -/
theorem test_eq :
    view (step (ref [12] [4, 4])) = some ⟨[1], 1, .running, none, []⟩ ∧
      view (step (ref [12] [5, 4])) = some ⟨[0], 1, .running, none, []⟩ := by decide

/-- V84, V88. -/
theorem test_lt :
    view (step (ref [13] [7, 3])) = some ⟨[1], 1, .running, none, []⟩ ∧
      view (step (ref [13] [-2147483648, 2147483647])) = some ⟨[0], 1, .running, none, []⟩ := by decide

/-- V90, V94. -/
theorem test_gt :
    view (step (ref [14] [3, 7])) = some ⟨[1], 1, .running, none, []⟩ ∧
      view (step (ref [14] [2147483647, -2147483648])) = some ⟨[0], 1, .running, none, []⟩ := by decide

/-- V101, V105. -/
theorem test_alloc :
    slotAfter 255 (step (ref [15, 255] [])) = some (some 0, true) ∧
      slotAfter 0 (step (withSlot0 7 (ref [15, 0] []))) = some (some 0, true) := by decide

/-- V102, V103. -/
theorem test_alloc_range :
    view (step (ref [15, 256] [])) = some ⟨[], 0, .faulted, some .memoryIndexOutOfRange, []⟩ ∧
      view (step (ref [15, -1] [])) = some ⟨[], 0, .faulted, some .memoryIndexOutOfRange, []⟩ := by decide

/-- V106, V107, V108. -/
theorem test_load :
    view (step (withSlot0 7 (ref [16, 0] []))) = some ⟨[7], 2, .running, none, []⟩ ∧
      view (step (ref [16, 0] [])) = some ⟨[], 0, .faulted, some .unallocatedSlot, []⟩ ∧
      view (step (zeroed [16, 0] [])) = some ⟨[0], 2, .running, none, []⟩ := by decide

/-- V110, V112. -/
theorem test_load_order :
    view (step (withSlot0 7 (small [16, 0] [2, 1]))) = some ⟨[2, 1], 0, .faulted, some .stackOverflow, []⟩ ∧
      view (step (small [16, 0] [2, 1])) = some ⟨[2, 1], 0, .faulted, some .unallocatedSlot, []⟩ := by decide

/-- V113, V118. -/
theorem test_store :
    slotAfter 0 (step (withSlot0 0 (ref [17, 0] [2]))) = some (some 2, true) ∧
      slotAfter 3 (step (zeroed [17, 3] [1])) = some (some 1, false) := by decide

/-- V115, V117. -/
theorem test_store_order :
    view (step (ref [17, 999] [])) = some ⟨[], 0, .faulted, some .stackUnderflow, []⟩ ∧
      view (step (ref [17, 3] [1])) = some ⟨[1], 0, .faulted, some .unallocatedSlot, []⟩ := by decide

/-- V120, V121, V122. -/
theorem test_halt_and_ends :
    view (step (ref [18, 8] [])) = some ⟨[], 0, .halted, none, []⟩ ∧
      view (step (ref [] [])) = some ⟨[], 0, .halted, none, []⟩ ∧
      view (step (ref [19] [])) = some ⟨[], 0, .faulted, some .unknownInstruction, []⟩ := by decide

/-- A write of what an unlisted slot reads as removes the entry, so that equal memories are equal lists. -/
theorem test_memory_canonical :
    Memory.write (some 0) 3 0 [(1, 5), (3, 9)] = [(1, 5)] ∧ Memory.write none 2 0 [(1, 5), (3, 9)] = [(1, 5), (2, 0), (3, 9)] := by
  decide

/-- The host's placing of a table word: PUSH 7 and HALT as the first instruction after reset. -/
theorem test_fetch_word :
    view (step (State.reset.withFetchWord 64 0x0000000700000000)) = some ⟨[7], 2, .running, none, []⟩ ∧
      view (step (State.reset.withFetchWord 32 0x00000012)) = some ⟨[], 0, .halted, none, []⟩ := by decide

/-- The numeric codes (10_state.md R28, R29). -/
theorem test_codes :
    [Status.running, .halted, .faulted].map Status.code = [0, 1, 2] ∧
      [none, some FaultKind.stackUnderflow, some .stackOverflow, some .memoryIndexOutOfRange, some .divisionByZero,
        some .unknownInstruction, some .programBoundsError, some .unallocatedSlot].map ferrCode =
        [0, 1, 2, 3, 4, 5, 6, 7] := by decide

/-! Witnesses: for each statement, states and operands that meet its hypotheses together, clause by clause. -/

/-- A state in mid-run that meets the invariant: a value on the stack, in slot 0 and in the output, `ip` at a LOAD. -/
def midRun : State := { withSlot0 7 (ref [15, 0, 16, 0, 8, 18] [5]) with ip := 2, out := [5] }

theorem midRun_inv : midRun.Inv := by constructor <;> decide

theorem reset_inv : State.reset.Inv := by constructor <;> decide

theorem witness_RunStartsFresh :
    State.reset = State.initial referenceConfig [] ∧ referenceConfig.unallocPolicy = .fault ∧
      zeroed [] [] = State.initial { referenceConfig with unallocPolicy := .zero } [] := by decide

theorem witness_HostResetForgetsTheRun : (ref [18] []).cfg = midRun.cfg := by decide

/-- Also for WrappedSubtractionSpellingsAgree. -/
theorem witness_WrapIsTheUniqueCongruentCell :
    1 ≤ 32 ∧ isCell 32 (-2147483648) ∧ (-2147483648 : Int) % ((2 ^ 32 : Nat) : Int) = 2147483648 % ((2 ^ 32 : Nat) : Int) := by
  decide

theorem witness_PushPushesItsOperand :
    (ref [0] []).OperandMissing .push ∧ (small [0, 9] [2, 1]).cfg.stackCap ≤ (small [0, 9] [2, 1]).sp ∧
      (small [0, 9] [1]).sp < (small [0, 9] [1]).cfg.stackCap := by decide

theorem witness_PopRemovesTheTop : (ref [1] []).stk = [] ∧ (ref [1] [7]).stk = 7 :: [] := by decide

theorem witness_DupCopiesTheTop :
    (ref [6] []).stk = [] ∧ (small [6] [2, 1]).stk = 2 :: [1] ∧
      (small [6] [2, 1]).cfg.stackCap ≤ (small [6] [2, 1]).sp ∧ (small [6] [1]).stk = 1 :: [] ∧
      (small [6] [1]).sp < (small [6] [1]).cfg.stackCap := by decide

/-- For SWAP, ADD, SUB, MUL, EQ, LT, GT (SwapExchangesTheTopTwo to GtPushesOneIffFirstPoppedIsLess): one live cell
is too few, two are enough. -/
theorem witness_two_operands : (ref [2] [7]).sp < 2 ∧ (ref [2] [3, 2]).stk = 3 :: 2 :: [] := by decide

theorem witness_DivMultipliesByTheTruncatedReciprocal :
    (ref [5] [7]).sp < 2 ∧ (ref [5] [0, 5]).stk = 0 :: 5 :: [] ∧ (ref [5] [2, 8]).stk = 2 :: 8 :: [] ∧ (2 : Int) ≠ 0 := by
  decide

theorem witness_DivResultTable :
    1 ≤ (ref [5] [1, 8]).cfg.width ∧ isCell (ref [5] [1, 8]).cfg.width 8 ∧
      isCell (ref [5] [-1, -2147483648]).cfg.width (-2147483648) ∧
      (8 : Int) ≠ intMin (ref [5] [-1, 8]).cfg.width ∧ (-2147483648 : Int) = intMin (ref [5] [-1, -2147483648]).cfg.width ∧
      (ref [5] [1, 8]).stk = 1 :: 8 :: [] ∧ (ref [5] [-1, 8]).stk = -1 :: 8 :: [] ∧
      (ref [5] [-1, -2147483648]).stk = -1 :: -2147483648 :: [] ∧ (ref [5] [2, 8]).stk = 2 :: 8 :: [] ∧
      (ref [5] [-2, 8]).stk = -2 :: 8 :: [] ∧ (ref [5] [0, 8]).stk = 0 :: 8 :: [] := by decide

theorem witness_PrintAppendsTheTop : (ref [8] []).stk = [] ∧ (ref [8] [5]).stk = 5 :: [] := by decide

theorem witness_JmpSetsIpToItsTarget :
    (ref [9] []).OperandMissing .jmp ∧ (ref [9, 0] []).ValidTarget 0 ∧ (ref [9, 0] []).ValidTarget 1 ∧
      ¬ (ref [9, 0] []).ValidTarget 2 ∧ ¬ (ref [9, 0] []).ValidTarget (-1) := by decide

theorem witness_JzPopsAndJumpsOnZero :
    (ref [10] []).OperandMissing .jz ∧ (ref [10, 1] []).stk = [] ∧ (ref [10, 1] [-1]).stk = -1 :: [] ∧
      (-1 : Int) ≠ 0 ∧ (ref [10, 1] [0]).stk = 0 :: [] ∧ (ref [10, 1] [0]).ValidTarget 1 ∧
      ¬ (ref [10, 2] [0]).ValidTarget 2 := by decide

theorem witness_JnzPopsAndJumpsOnNonzero :
    (ref [11] []).OperandMissing .jnz ∧ (ref [11, 1] []).stk = [] ∧ (ref [11, 1] [0]).stk = 0 :: [] ∧
      (ref [11, 1] [-1]).stk = -1 :: [] ∧ (-1 : Int) ≠ 0 ∧ (ref [11, 1] [-1]).ValidTarget 1 ∧
      ¬ (ref [11, 2] [-1]).ValidTarget 2 := by decide

theorem witness_AllocZeroesAndFlagsItsSlot :
    (ref [15] []).OperandMissing .alloc ∧ ¬ (ref [15, 256] []).ValidSlot 256 ∧ ¬ (ref [15, -1] []).ValidSlot (-1) ∧
      (ref [15, 255] []).ValidSlot 255 ∧ (ref [15, 0] []).ValidSlot 0 := by decide

theorem witness_LoadPushesItsSlot :
    (ref [16] []).OperandMissing .load ∧ ¬ (ref [16, 256] []).ValidSlot 256 ∧ (ref [16, 0] []).ValidSlot 0 ∧
      ¬ (ref [16, 0] []).Usable 0 ∧ (withSlot0 7 (small [16, 0] [2, 1])).Usable 0 ∧
      (withSlot0 7 (small [16, 0] [2, 1])).ValidSlot 0 ∧ (withSlot0 7 (small [16, 0] [2, 1])).readSlot 0 = some 7 ∧
      (small [16, 0] [2, 1]).cfg.stackCap ≤ (small [16, 0] [2, 1]).sp ∧
      (small [16, 0] [1]).sp < (small [16, 0] [1]).cfg.stackCap ∧
      (zeroed [16, 0] []).Usable 0 ∧ (zeroed [16, 0] []).readSlot 0 = some 0 := by decide

theorem witness_StoreWritesItsSlot :
    (ref [17] []).OperandMissing .store ∧ (ref [17, 0] []).stk = [] ∧ (ref [17, 0] [2]).stk = 2 :: [] ∧
      ¬ (ref [17, 256] [2]).ValidSlot 256 ∧ (ref [17, 255] [2]).ValidSlot 255 ∧ ¬ (ref [17, 255] [2]).Usable 255 ∧
      (withSlot0 0 (ref [17, 0] [2])).ValidSlot 0 ∧ (withSlot0 0 (ref [17, 0] [2])).Usable 0 := by decide

theorem witness_LoadAfterAllocPushesZero :
    (small [15, 255] [1]).ValidSlot 255 ∧ (small [15, 255] [1]).sp < (small [15, 255] [1]).cfg.stackCap := by decide

/-- STORE 0, then POP, then room for the LOAD. -/
theorem witness_LoadReturnsTheLatestStore :
    ∃ t u : State, (withSlot0 0 (ref [17, 0] [2, 9])).stk = 2 :: [9] ∧ (withSlot0 0 (ref [17, 0] [2, 9])).ValidSlot 0 ∧
      (withSlot0 0 (ref [17, 0] [2, 9])).Usable (0 : Int).toNat ∧
      exec (.store 0) (withSlot0 0 (ref [17, 0] [2, 9])) = .next t ∧ Instr.pop.storeSlot? ≠ some (0 : Int).toNat ∧
      exec .pop t = .next u ∧ u.sp < u.cfg.stackCap :=
  ⟨_, _, rfl, by decide, by decide, rfl, by decide, rfl, by decide⟩

theorem witness_EndOfProgramHalts : (ref [] []).status = .running ∧ (ref [] []).plen ≤ (ref [] []).ip := by decide

theorem witness_UnknownOpcodeFaults :
    (ref [19] []).status = .running ∧ (ref [19] []).prog[(ref [19] []).ip]? = some 19 ∧
      ∀ m ∈ Mnemonic.all, (ref [19] []).cfg.opc.number m ≠ 19 := by decide

theorem witness_StepExecutesTheDecodedInstruction :
    (ref [10, 3, 8] []).status = .running ∧
      decode (ref [10, 3, 8] []).cfg ((ref [10, 3, 8] []).prog.drop (ref [10, 3, 8] []).ip) = .instr (.jz 3) [8] := by decide

theorem witness_TerminalStatesHaveNoStep :
    (ref [] []).halt.status ≠ .running ∧ ((ref [] []).faultedWith .stackUnderflow).status ≠ .running := by decide

theorem witness_FaultsArePrecise : ∃ t, step (ref [1] []) = .next t ∧ t.status = .faulted := ⟨_, rfl, rfl⟩

/-- UnderflowIffTooFewLiveCells, IndexFaultIffOutsideTheDeclaredSize, DivisionFaultIffFirstPoppedIsZero,
TargetFaultIffTakenJumpLeavesTheProgram, UnallocatedFaultIffFlagClear: both sides of each equivalence are met. -/
theorem witness_running_exec :
    (ref [1] []).status = .running ∧ (ref [1] []).sp < (Instr.pop).mnemonic.stackNeed ∧
      (small [0, 1] [2, 1]).status = .running ∧ (small [0, 1] [2, 1]).cfg.stackCap ≤ (small [0, 1] [2, 1]).sp ∧
      ((256 : Int) < 0 ∨ ((ref [15, 256] []).cfg.memSize : Int) ≤ 256) ∧
      (ref [5] [0, 5]).stk = 0 :: 5 :: [] ∧ ((2 : Int) < 0 ∨ ((ref [9, 2] []).plen : Int) ≤ 2) ∧
      (ref [16, 0] []).cfg.unallocPolicy = .fault ∧ (ref [16, 0] []).ValidSlot 0 ∧
      (ref [16, 0] []).allocFlag (0 : Int).toNat = false := by decide

theorem witness_OverflowIffPushOnAFullStack :
    ∃ t, (small [1] [2, 1]).cfg.stackCap ≤ (small [1] [2, 1]).sp ∧ exec .pop (small [1] [2, 1]) = .next t ∧
      t.status ≠ .faulted := ⟨_, by decide, rfl, by decide⟩

theorem witness_InstructionsRaiseOnlyTheirListedFaults :
    ∃ t, (ref [5] [0, 5]).status = .running ∧ exec .div (ref [5] [0, 5]) = .next t ∧ t.status = .faulted :=
  ⟨_, rfl, rfl, rfl⟩

theorem witness_FirstCheckInOrderDecidesTheFault :
    (small [0] [2, 1]).OperandMissing .push ∧ (small [0] [2, 1]).sp = (small [0] [2, 1]).cfg.stackCap ∧
      (ref [10] []).OperandMissing .jz ∧ (ref [11] []).OperandMissing .jnz ∧ (ref [10] []).sp = 0 ∧
      ¬ (ref [17, 256] []).ValidSlot 256 ∧ ¬ (small [16, 256] [2, 1]).ValidSlot 256 ∧
      (small [16, 255] [2, 1]).ValidSlot 255 ∧ ¬ (small [16, 255] [2, 1]).Usable 255 ∧ (ref [5] [0]).stk = [0] ∧
      ¬ (ref [10, 2] []).ValidTarget 2 := by decide

/-- The model's own stop is reached only in a state that breaks the invariant: a flag without a value. -/
theorem witness_OnlyAValuelessSlotStopsTheModel :
    exec (.load 0) { ref [16, 0] [] with alloc := [0] } = .fault .slotHoldsNoValue := rfl

theorem witness_EveryStepKeepsTheRunInvariant : midRun.Inv ∧ ∃ t, step midRun = .next t := ⟨midRun_inv, _, rfl⟩

theorem witness_RunStartMeetsTheRunInvariant :
    referenceConfig.Legal ∧ referenceConfig.LegalProgram [0, 2147483647, -2147483648] := by decide

/-- A run of two steps: PUSH 7, then PRINT. -/
theorem witness_ReachableStatesMeetTheBounds :
    ∃ s, referenceConfig.Legal ∧ referenceConfig.LegalProgram [0, 7, 8] ∧ Reachable referenceConfig [0, 7, 8] s ∧
      s.out = [7] :=
  ⟨_, by decide, by decide, .step (.step .start rfl) rfl, rfl⟩

theorem witness_RunningCoreAlwaysSteps : midRun.Inv ∧ midRun.status = .running := ⟨midRun_inv, rfl⟩

theorem witness_StatusMovesOnlyFromRunning :
    (ref [18] []).cfg.Legal ∧ (∃ t, step (ref [18] []) = .next t ∧ t.status = .halted) ∧
      ∃ t, step (ref [1] []) = .next t ∧ t.status = .faulted := ⟨by decide, ⟨_, rfl, rfl⟩, ⟨_, rfl, rfl⟩⟩

theorem witness_ProgramAndConfigurationAreNeverWritten : ∃ t, step midRun = .next t := ⟨_, rfl⟩

theorem witness_OutputGrowsOnlyByPrint :
    (ref [8] [5]).cfg.Legal ∧ (∃ t, step (ref [8] [5]) = .next t ∧ (ref [8] [5]).AtOpcode .print ∧ t.status ≠ .faulted) ∧
      ∃ t, step (ref [8] []) = .next t ∧ t.status = .faulted := ⟨by decide, ⟨_, rfl, by decide, by decide⟩, ⟨_, rfl, rfl⟩⟩

theorem witness_MemoryChangesOnlyByAllocAndStore :
    ∃ t, exec (.alloc 0) (ref [15, 0] []) = .next t ∧ t.allocFlag 0 ≠ (ref [15, 0] []).allocFlag 0 ∧
      some 1 ≠ (Instr.alloc 0).storeSlot? ∧ (withSlot0 7 (ref [15, 0] [])).allocFlag 0 = true :=
  ⟨_, rfl, by decide, by decide, by decide⟩

theorem witness_IpAdvanceTable :
    (∃ t, exec (.jz 1) (ref [10, 1] [0]) = .next t ∧ t.status ≠ .faulted ∧ (ref [10, 1] [0]).stk.head? = some 0) ∧
      (∃ t, exec (.jz 1) (ref [10, 1] [5]) = .next t ∧ t.status ≠ .faulted ∧ (ref [10, 1] [5]).stk.head? ≠ some 0) ∧
      ∃ t, exec (.jz 1) (ref [10, 1] []) = .next t ∧ t.status = .faulted :=
  ⟨⟨_, rfl, by decide, rfl⟩, ⟨_, rfl, by decide, by decide⟩, ⟨_, rfl, rfl⟩⟩

theorem witness_StackUseTable : ∃ t, exec .add (ref [2] [3, 2]) = .next t ∧ t.status ≠ .faulted := ⟨_, rfl, by decide⟩

theorem witness_CellsBelowTheNeededAreUntouched :
    ∃ t, exec .swap (ref [7] [7, 3, 1]) = .next t ∧ 0 + (Instr.swap).mnemonic.stackNeed < (ref [7] [7, 3, 1]).sp :=
  ⟨_, rfl, by decide⟩

/-- HALT reads its own cell only, so that a program with another second cell steps alike. -/
theorem witness_StepReadsOnlyTheFetchedCells :
    ([18, 9] : List Int).length = (ref [18, 8] []).plen ∧ programReads (ref [18, 8] []) = [0] ∧
      (∀ k ∈ programReads (ref [18, 8] []), ([18, 9] : List Int)[k]? = (ref [18, 8] []).prog[k]?) ∧
      ∃ t, step (ref [18, 8] []) = .next t := ⟨by decide, by decide, by decide, _, rfl⟩

theorem witness_PoliciesAgreeUntilAnUnallocatedUse :
    PolicyRelated (withSlot0 7 (ref [16, 0] [])) (withSlot0 7 (zeroed [16, 0] [])) ∧
      ∃ t, step (withSlot0 7 (ref [16, 0] [])) = .next t ∧ t.ferr ≠ some .unallocatedSlot :=
  ⟨by constructor <;> decide, _, rfl, by decide⟩

/-- Also for ProgramWalkFindsTheInstructions. -/
theorem witness_DecodeAfterEncodeIsIdentity :
    referenceConfig.Legal ∧ (Instr.push (-2147483648)).WellFormed referenceConfig := by decide

theorem witness_EncodeAfterDecodeIsIdentity :
    decode referenceConfig [0, 18, 8] = .instr (.push 18) [8] := by decide

theorem witness_TableWordRoundTrip :
    (Instr.store 2147483647).WellFormed referenceConfig ∧ Instr.halt.WellFormed referenceConfig := by decide

end Sys2Proof.Tests
end

section
/-! The wrap is the unique cell of its residue class, and the reference configuration is the start of a run
(00_scope.md R6, R8). -/

namespace Sys2Proof.Machine

/-- The cell range is `2^w` wide: one step above its top is one turn above its bottom (00_scope.md R7). -/
theorem intMax_add_one {w : Nat} (hw : 1 ≤ w) : intMax w + 1 = intMin w + ((2 ^ w : Nat) : Int) := by
  have h2 := two_pow_split hw
  unfold intMax intMin
  omega

theorem isCell_intMin (w : Nat) : isCell w (intMin w) := by
  have hpos := two_pow_pos (w - 1)
  unfold isCell intMax intMin
  omega

/-- A cell congruent to `n` is `wrap(n)`: such a cell wraps to itself, and the wrap sees the residue alone. -/
theorem eq_wrap_of_isCell_of_emod_eq {w : Nat} (hw : 1 ≤ w) {v n : Int} (hv : isCell w v)
    (hmod : v % ((2 ^ w : Nat) : Int) = n % ((2 ^ w : Nat) : Int)) : v = wrap w n :=
  calc v = wrap w v := (wrap_of_isCell hw hv).symm
    _ = wrap w n := wrap_congr hmod

/-- The overflow corner: one above the largest cell is the smallest one (00_scope.md R8). -/
theorem wrap_intMax_add_one {w : Nat} (hw : 1 ≤ w) : wrap w (intMax w + 1) = intMin w := by
  have hmod : (intMax w + 1) % ((2 ^ w : Nat) : Int) = intMin w % ((2 ^ w : Nat) : Int) := by
    rw [intMax_add_one hw, Int.add_emod_right]
  exact (eq_wrap_of_isCell_of_emod_eq hw (isCell_intMin w) hmod.symm).symm

/-- Settles O4: range and congruence are those of `wrap`, and a cell is determined by its residue. -/
theorem wrapIsTheUniqueCongruentCell : Obligations.WrapIsTheUniqueCongruentCell := by
  intro w hw n
  exact ⟨wrap_isCell hw n, wrap_emod w n, fun _ hv hmod => eq_wrap_of_isCell_of_emod_eq hw hv hmod,
    wrap_intMax_add_one hw⟩

/-- The reference opcode numbers are 0 to 18 in the table's order (30_encoding.md R74). -/
theorem referenceOpcodes_numbers :
    Mnemonic.all.map referenceOpcodes.number = (List.range 19).map (fun n : Nat => (n : Int)) := by decide

theorem referenceOpcodes_injective : referenceOpcodes.Injective := by decide

theorem referenceOpcodes_isCell : ∀ m ∈ Mnemonic.all, isCell 32 (referenceOpcodes.number m) := by decide

/-- The reference configuration takes legal values for its parameters (00_scope.md R5, R6). -/
theorem referenceConfig_legal : referenceConfig.Legal := by
  have hwidth : 6 ≤ referenceConfig.width := by decide
  have hstack : 1 ≤ referenceConfig.stackCap := by decide
  exact ⟨hwidth, hstack, referenceOpcodes_isCell, referenceOpcodes_injective⟩

/-- Settles O2: the reset state and the parameters by definition, the legality and the numbers of `OPC` by the
facts of the reference opcode map. -/
theorem resetIsReferenceRunStart : Obligations.ResetIsReferenceRunStart :=
  ⟨rfl, referenceConfig_legal, rfl, rfl, rfl, rfl, referenceOpcodes_numbers⟩

end Sys2Proof.Machine
end

section
/-! The invariant of runs (10_state.md R35): what each update of the state needs to keep it, then each
instruction and each step. -/

namespace Sys2Proof.Machine

/-! ### One rule for each update -/

/-- The stack is written with cells that fit. -/
theorem State.Inv.setStk {s : State} (h : s.Inv) {cells : List Int} (hlen : cells.length ≤ s.cfg.stackCap)
    (hcells : ∀ v ∈ cells, isCell s.cfg.width v) : (s.setStk cells).Inv :=
  { h with depth := hlen, stkCells := hcells }

/-- `ip` is moved within the program, or to its end, in a Running state. -/
theorem State.Inv.setIp {s : State} (h : s.Inv) (hr : s.status = .running) {n : Nat} (hn : n ≤ s.plen) :
    (s.setIp n).Inv :=
  { h with
    ipBound := hn
    faultedInside := fun hf => absurd (hr.symm.trans hf) (by decide)
    haltedWhere := fun hh => absurd (hr.symm.trans hh) (by decide) }

theorem State.Inv.advance {s : State} (h : s.Inv) (hr : s.status = .running) {n : Nat} (hn : s.ip + n ≤ s.plen) :
    (s.advance n).Inv :=
  h.setIp hr hn

theorem State.Inv.emit {s : State} (h : s.Inv) {v : Int} (hv : isCell s.cfg.width v) : (s.emit v).Inv :=
  { h with
    outCells := fun u hu => by
      rcases List.mem_append.mp hu with hu | hu
      · exact h.outCells u hu
      · exact List.mem_singleton.mp hu ▸ hv }

/-- A fault is taken at a cell of the program. -/
theorem State.Inv.faultedWith {s : State} (h : s.Inv) (hip : s.ip < s.plen) (K : FaultKind) :
    (s.faultedWith K).Inv :=
  { h with
    faultedIff := by simp
    faultedInside := fun _ => hip
    haltedWhere := fun hh => absurd hh (by simp) }

/-- A run ends cleanly at the end of the program or at a HALT, and from Running. -/
theorem State.Inv.halt {s : State} (h : s.Inv) (hr : s.status = .running)
    (hwhere : s.ip = s.plen ∨ s.prog[s.ip]? = some (s.cfg.opc.number .halt)) : s.halt.Inv :=
  { h with
    faultedIff := by
      have hferr : s.ferr = none := by simpa [hr] using h.faultedIff
      simp [hferr]
    faultedInside := fun hf => absurd hf (by simp)
    haltedWhere := fun _ => hwhere }

/-- Slot `i` is written with a cell and the flags become `flags`, which may add slot `i` to the old ones, and must
under `UNALLOC_POLICY = fault`. STORE leaves the flags as they are, ALLOC adds its slot. -/
theorem State.Inv.writeSlot_flags {s : State} (h : s.Inv) {i : Nat} {v : Int} {flags : List Nat}
    (hi : i < s.cfg.memSize) (hv : isCell s.cfg.width v) (hrising : flags.Pairwise (· < ·))
    (hkeep : ∀ j ∈ s.alloc, j ∈ flags) (hnew : ∀ j ∈ flags, j = i ∨ j ∈ s.alloc)
    (hflag : s.cfg.unallocPolicy = .fault → i ∈ flags) : ({ s.writeSlot i v with alloc := flags } : State).Inv :=
  { h with
    memCells := fun e he => by
      rcases Memory.mem_write he with rfl | ⟨he, _⟩
      · exact hv
      · exact h.memCells e he
    memRange := fun e he => by
      rcases Memory.mem_write he with rfl | ⟨he, _⟩
      · exact hi
      · exact h.memRange e he
    memForm := Memory.wf_write h.memForm
    allocForm := hrising
    allocRange := fun j hj => by
      rcases hnew j hj with rfl | hj
      · exact hi
      · exact h.allocRange j hj
    allocHasValue := fun j hj => by
      change (s.writeSlot i v).readSlot j ≠ none
      rw [readSlot_writeSlot]
      split
      · exact Option.some_ne_none v
      · rename_i hij
        exact h.allocHasValue j ((hnew j hj).resolve_left (Ne.symm hij))
    valueIsAllocated := fun hp e he => by
      rcases Memory.mem_write he with rfl | ⟨he, _⟩
      · exact hflag hp
      · exact hkeep _ (h.valueIsAllocated hp e he) }

/-- STORE's write: under `UNALLOC_POLICY = fault` its slot has a flag. -/
theorem State.Inv.writeSlot {s : State} (h : s.Inv) {i : Nat} {v : Int} (hi : i < s.cfg.memSize)
    (hv : isCell s.cfg.width v) (hu : s.Usable i) : (s.writeSlot i v).Inv :=
  h.writeSlot_flags hi hv h.allocForm (fun _ hj => hj) (fun _ hj => .inr hj) fun hp =>
    allocFlag_iff.mp (hu.resolve_left (by simp [hp]))

/-- ALLOC's write: the slot gets its value and its flag together. -/
theorem State.Inv.writeSlot_setAlloc {s : State} (h : s.Inv) {i : Nat} {v : Int} (hi : i < s.cfg.memSize)
    (hv : isCell s.cfg.width v) : ((s.writeSlot i v).setAlloc i).Inv :=
  h.writeSlot_flags hi hv (rising_insertSlot h.allocForm) (fun _ hj => mem_insertSlot.mpr (.inr hj))
    (fun _ hj => mem_insertSlot.mp hj) fun _ => mem_insertSlot.mpr (.inl rfl)

/-! ### The shapes that instructions share -/

theorem State.Inv.isCell_of_nonneg_of_le_one {s : State} (h : s.Inv) {v : Int} (h0 : 0 ≤ v) (h1 : v ≤ 1) :
    isCell s.cfg.width v :=
  isCell_small h.legal.1 h0 h1

/-- Whatever a slot reads as is a cell. -/
theorem State.Inv.isCell_of_readSlot {s : State} (h : s.Inv) {i : Nat} {v : Int} (hv : s.readSlot i = some v) :
    isCell s.cfg.width v := by
  rcases readSlot_some hv with hm | ⟨_, rfl⟩
  · exact h.memCells _ hm
  · exact h.isCell_of_nonneg_of_le_one le_rfl (by decide)

theorem State.Inv.isCell_of_stk_eq_cons {s : State} (h : s.Inv) {v : Int} {below : List Int}
    (hs : s.stk = v :: below) : isCell s.cfg.width v :=
  h.stkCells v (by simp [hs])

/-- Popping the top cell. -/
theorem State.Inv.pop {s : State} (h : s.Inv) {v : Int} {below : List Int} (hs : s.stk = v :: below) :
    (s.setStk below).Inv := by
  have hd : s.stk.length ≤ s.cfg.stackCap := h.depth
  refine h.setStk ?_ fun u hu => h.stkCells u (by simp [hs, hu])
  simp only [hs, List.length_cons] at hd
  omega

/-- Pushing a cell where there is room. -/
theorem State.Inv.push {s : State} (h : s.Inv) {v : Int} (hroom : s.sp < s.cfg.stackCap)
    (hv : isCell s.cfg.width v) : (s.setStk (v :: s.stk)).Inv :=
  h.setStk hroom (List.forall_mem_cons.mpr ⟨hv, h.stkCells⟩)

/-- Popping two cells and pushing one. -/
theorem State.Inv.popTwo_push {s : State} (h : s.Inv) {a b v : Int} {below : List Int}
    (hs : s.stk = a :: b :: below) (hv : isCell s.cfg.width v) : (s.setStk (v :: below)).Inv := by
  have h1 : (s.setStk (b :: below)).Inv := h.pop hs
  have h2 : (s.setStk below).Inv := h1.pop rfl
  have hd : (b :: below).length ≤ s.cfg.stackCap := h1.depth
  exact h2.push hd hv

theorem condCell_isCell {s : State} (h : s.Inv) (b : Bool) : isCell s.cfg.width (condCell b) := by
  cases b
  · exact h.isCell_of_nonneg_of_le_one (by decide) (by decide)
  · exact h.isCell_of_nonneg_of_le_one (by decide) (by decide)

/-! ### Instructions and steps -/

/-- The effect of an instruction whose cells lie in the program keeps the invariant. Its operand must be a cell
(PUSH pushes it), and a HALT must stand at `ip` as a cell. -/
theorem State.Inv.effect {s t : State} {i : Instr} (h : s.Inv) (hr : s.status = .running)
    (hin : s.ip + i.mnemonic.cells ≤ s.plen) (hwf : i.WellFormed s.cfg)
    (hat : s.prog[s.ip]? = some (s.cfg.opc.number i.mnemonic)) (he : Effect s t i) : t.Inv := by
  have hw : 1 ≤ s.cfg.width := width_pos h.legal
  cases i with
  | push v =>
    obtain ⟨hroom, rfl⟩ := he
    exact (h.push hroom (hwf v rfl)).advance hr hin
  | pop =>
    obtain ⟨v, below, hs, rfl⟩ := he
    exact (h.pop hs).advance hr hin
  | add | sub | mul =>
    obtain ⟨a, b, below, hs, rfl⟩ := he
    exact (h.popTwo_push hs (wrap_isCell hw _)).advance hr hin
  | div =>
    obtain ⟨a, b, below, hs, -, rfl⟩ := he
    exact (h.popTwo_push hs (wrap_isCell hw _)).advance hr hin
  | eq | lt | gt =>
    obtain ⟨a, b, below, hs, rfl⟩ := he
    exact (h.popTwo_push hs (condCell_isCell h _)).advance hr hin
  | dup =>
    obtain ⟨v, below, hs, hroom, rfl⟩ := he
    exact (h.push hroom (h.isCell_of_stk_eq_cons hs)).advance hr hin
  | swap =>
    obtain ⟨a, b, below, hs, rfl⟩ := he
    have hd : s.stk.length ≤ s.cfg.stackCap := h.depth
    have hperm : (b :: a :: below).Perm s.stk := hs ▸ List.Perm.swap a b below
    have hswap : (s.setStk (b :: a :: below)).Inv :=
      h.setStk (hperm.length_eq.trans_le hd) fun u hu => h.stkCells u (hperm.mem_iff.mp hu)
    exact hswap.advance hr hin
  | print =>
    obtain ⟨v, below, hs, rfl⟩ := he
    exact (h.emit (h.isCell_of_stk_eq_cons hs)).advance hr hin
  | jmp n =>
    obtain ⟨h0, h1, rfl⟩ := he
    exact h.setIp hr (by omega)
  | jz n | jnz n =>
    obtain ⟨v, below, hs, ⟨-, rfl⟩ | ⟨-, h0, h1, rfl⟩⟩ := he
    · exact (h.pop hs).advance hr hin
    · exact (h.pop hs).setIp hr (show n.toNat ≤ s.plen by omega)
  | alloc n =>
    obtain ⟨h0, h1, rfl⟩ := he
    have hzero : isCell s.cfg.width 0 := h.isCell_of_nonneg_of_le_one le_rfl (by decide)
    exact (h.writeSlot_setAlloc (by omega) hzero).advance hr hin
  | load n =>
    obtain ⟨-, -, -, v, hv, hroom, rfl⟩ := he
    exact (h.push hroom (h.isCell_of_readSlot hv)).advance hr hin
  | store n =>
    obtain ⟨v, below, hs, h0, h1, hu, rfl⟩ := he
    have hwrite : (s.writeSlot n.toNat v).Inv := h.writeSlot (by omega) (h.isCell_of_stk_eq_cons hs) hu
    exact (hwrite.pop hs).advance hr hin
  | halt =>
    obtain rfl := he
    exact h.halt hr (.inr hat)

/-- The operand of a fetched instruction is a cell of the program (30_encoding.md R72). -/
theorem operand_mem_prog {s : State} {i : Instr} {rest : List Int} (hf : fetch s = .instr i rest) {v : Int}
    (hv : v ∈ i.operand?) : v ∈ s.prog := by
  obtain ⟨u, hd, -⟩ := decode_instr hf
  have hmem : v ∈ s.prog.drop s.ip := by
    rw [hd]
    simp [Option.mem_toList.mpr hv]
  exact List.mem_of_mem_drop hmem

/-- The opcode cell of a fetched instruction is its own number. -/
theorem opcode_of_fetch {s : State} {i : Instr} {rest : List Int} (hf : fetch s = .instr i rest) :
    s.prog[s.ip]? = some (s.cfg.opc.number i.mnemonic) := by
  obtain ⟨⟨v, hv, hm⟩, -⟩ := fetch_instr hf
  rw [hv, OpcodeMap.number_of_mnemonicOf hm]

/-- Executing what stands at `ip` keeps the invariant, whether it faults or not. -/
theorem State.Inv.exec {s t : State} {i : Instr} {rest : List Int} (h : s.Inv) (hr : s.status = .running)
    (hf : fetch s = .instr i rest) (he : exec i s = .next t) : t.Inv := by
  have hin : s.ip + i.mnemonic.cells ≤ s.plen := (fetch_instr hf).2
  rcases exec_next he with ⟨K, -, rfl⟩ | heff
  · have hpos := i.mnemonic.one_le_cells
    exact h.faultedWith (by omega) K
  · exact h.effect hr hin (fun v hv => h.program.1 v (operand_mem_prog hf hv)) (opcode_of_fetch hf) heff

/-- Settles O43: a step ends the run at the end of the program, faults in the fetch, or executes an instruction,
and each keeps the invariant. -/
theorem everyStepKeepsTheRunInvariant : Obligations.EveryStepKeepsTheRunInvariant := by
  intro s t h hstep
  obtain ⟨hr, ⟨hend, rfl⟩ | ⟨hip, rfl | rfl, -⟩ | ⟨i, rest, hf, he⟩⟩ := step_next hstep
  · exact h.halt hr (.inl (le_antisymm h.ipBound hend))
  · exact h.faultedWith hip .unknownInstruction
  · exact h.faultedWith hip .programBoundsError
  · exact h.exec hr hf he

end Sys2Proof.Machine
end

section
/-! The start of a run meets the invariant, so every state of every run does (10_state.md R34, R35). -/

namespace Sys2Proof.Machine

/-- No slot is listed at the start of a run (10_state.md R34). -/
@[simp] theorem readSlot_initial (c : Config) (p : List Int) (i : Nat) :
    (State.initial c p).readSlot i = unlistedSlot c.unallocPolicy := rfl

@[simp] theorem allocFlag_initial (c : Config) (p : List Int) (i : Nat) : (State.initial c p).allocFlag i = false := rfl

/-- Settles O1: the fields by definition; a slot reads as an unlisted one, which is the policy's reset content. -/
theorem runStartsFresh : Obligations.RunStartsFresh := by
  rintro c p s rfl
  refine ⟨rfl, rfl, rfl, rfl, rfl, rfl, rfl, allocFlag_initial c p, fun k => ?_, fun hp i => ?_, fun hp i => ?_⟩
  · simp [State.stkAt]
  · simp [hp, unlistedSlot]
  · simp [hp, unlistedSlot]

/-- The start of a run of a legal program in a legal configuration meets the invariant: its lists are empty and it
is Running at cell 0. -/
theorem State.Inv.initial {c : Config} {p : List Int} (hc : c.Legal) (hp : c.LegalProgram p) :
    (State.initial c p).Inv where
  legal := hc
  program := hp
  depth := Nat.zero_le _
  stkCells := List.forall_mem_nil _
  memCells := List.forall_mem_nil _
  memRange := List.forall_mem_nil _
  memForm := Memory.wf_empty _
  allocForm := List.Pairwise.nil
  allocRange := List.forall_mem_nil _
  allocHasValue := List.forall_mem_nil _
  valueIsAllocated := fun _ => List.forall_mem_nil _
  outCells := List.forall_mem_nil _
  ipBound := Nat.zero_le _
  faultedIff := by simp
  faultedInside := by simp
  haltedWhere := by simp

theorem referenceConfig_legalProgram_nil : referenceConfig.LegalProgram [] :=
  ⟨List.forall_mem_nil _, by decide⟩

/-- Settles O44: `State.reset` is the start of the empty program, which is legal. -/
theorem runStartMeetsTheRunInvariant : Obligations.RunStartMeetsTheRunInvariant :=
  ⟨fun _ _ hc hp => .initial hc hp, .initial referenceConfig_legal referenceConfig_legalProgram_nil⟩

/-- A step writes neither the configuration nor the program (10_state.md R33). -/
theorem step_constants {s t : State} (h : step s = .next t) : t.cfg = s.cfg ∧ t.prog = s.prog := by
  obtain ⟨-, ⟨-, rfl⟩ | ⟨-, rfl | rfl, -⟩ | ⟨i, rest, -, he⟩⟩ := step_next h
  · exact ⟨rfl, rfl⟩
  · exact ⟨rfl, rfl⟩
  · exact ⟨rfl, rfl⟩
  · exact exec_constants he

/-- A run keeps its configuration and its program. -/
theorem Reachable.constants {c : Config} {p : List Int} {s : State} (h : Reachable c p s) :
    s.cfg = c ∧ s.prog = p := by
  induction h with
  | start => exact ⟨rfl, rfl⟩
  | step _ hstep ih =>
    obtain ⟨hcfg, hprog⟩ := step_constants hstep
    exact ⟨hcfg.trans ih.1, hprog.trans ih.2⟩

/-- Every state of a run of a legal program in a legal configuration meets the invariant. -/
theorem Reachable.inv {c : Config} {p : List Int} {s : State} (h : Reachable c p s) (hc : c.Legal)
    (hp : c.LegalProgram p) : s.Inv := by
  induction h with
  | start => exact .initial hc hp
  | step _ hstep ih => exact everyStepKeepsTheRunInvariant _ _ ih hstep

/-- A flagged slot holds a cell (10_state.md R35 (e), R26). -/
theorem State.Inv.readSlot_of_allocFlag {s : State} (h : s.Inv) {i : Nat} (hi : s.allocFlag i = true) :
    ∃ v, s.readSlot i = some v ∧ isCell s.cfg.width v := by
  obtain ⟨v, hv⟩ := Option.ne_none_iff_exists'.mp (h.allocHasValue i (allocFlag_iff.mp hi))
  exact ⟨v, hv, h.isCell_of_readSlot hv⟩

/-- Under `UNALLOC_POLICY = fault` only a flagged slot holds a value (10_state.md R35 (f)). -/
theorem State.Inv.allocFlag_of_readSlot {s : State} (h : s.Inv) (hp : s.cfg.unallocPolicy = .fault) {i : Nat}
    {v : Int} (hv : s.readSlot i = some v) : s.allocFlag i = true := by
  rcases readSlot_some hv with hm | ⟨hz, -⟩
  · exact allocFlag_iff.mpr (h.valueIsAllocated hp _ hm)
  · exact absurd (hp.symm.trans hz) (by decide)

/-- Settles O45: the bounds are clauses of the invariant, read for the configuration and program of the start. -/
theorem reachableStatesMeetTheBounds : Obligations.ReachableStatesMeetTheBounds := by
  intro c p s hc hp h
  have hinv : s.Inv := h.inv hc hp
  obtain ⟨rfl, rfl⟩ := h.constants
  exact ⟨rfl, rfl, hinv.depth, hinv.ipBound, hinv.faultedIff, fun _ => hinv.readSlot_of_allocFlag,
    fun hpol _ _ => hinv.allocFlag_of_readSlot hpol, hinv.faultedInside⟩

end Sys2Proof.Machine
end

section
/-! How an instruction leaves `status`, `ip` and `sp` (10_state.md R23, R25, R28). -/

namespace Sys2Proof.Machine

/-- From Running the effect of an instruction is no fault. -/
theorem Effect.not_faulted {s t : State} {i : Instr} (h : Effect s t i) (hr : s.status = .running) :
    t.status ≠ .faulted := by
  obtain ⟨-, -, -, hst | ⟨-, hst⟩⟩ := h.constants
  · simp [hst, hr]
  · simp [hst]

/-- An instruction that does not fault has had its effect. -/
theorem effect_of_exec {s t : State} {i : Instr} (h : exec i s = .next t) (ht : t.status ≠ .faulted) :
    Effect s t i := by
  rcases exec_next h with ⟨K, -, rfl⟩ | he
  · exact absurd (State.faultedWith_status s K) ht
  · exact he

/-- A faulting instruction leaves `ip` at its own opcode (40_execution_loop.md R95). -/
theorem ip_of_exec_faulted {s t : State} {i : Instr} (hr : s.status = .running) (h : exec i s = .next t)
    (ht : t.status = .faulted) : t.ip = s.ip := by
  rcases exec_next h with ⟨K, -, rfl⟩ | he
  · rfl
  · exact absurd ht (he.not_faulted hr)

/-- A faulting instruction leaves its fault kind in `ferr`. -/
theorem ferr_of_exec_faulted {s t : State} {i : Instr} (hr : s.status = .running) (h : exec i s = .next t)
    (ht : t.status = .faulted) : ∃ K, t.ferr = some K := by
  rcases exec_next h with ⟨K, -, rfl⟩ | he
  · exact ⟨K, rfl⟩
  · exact absurd ht (he.not_faulted hr)

/-- An instruction ends the run cleanly exactly if it is HALT, which has no fault. -/
theorem exec_halted_iff {s t : State} {i : Instr} (hr : s.status = .running) (h : exec i s = .next t) :
    t.status = .halted ↔ i = .halt := by
  constructor
  · intro ht
    obtain ⟨-, -, -, hst | ⟨hi, -⟩⟩ := (effect_of_exec h (by simp [ht])).constants
    · exact absurd (hr.symm.trans (hst.symm.trans ht)) (by decide)
    · exact hi
  · rintro rfl
    obtain rfl : s.halt = t := by simpa [exec_halt] using h
    rfl

/-- Settles O51: the effect of each instruction names the new `ip`. -/
theorem ipAdvanceTable : Obligations.IpAdvanceTable := by
  intro i s t hr h
  refine ⟨ip_of_exec_faulted hr h, fun ht => ?_⟩
  have he : Effect s t i := effect_of_exec h ht
  cases i with
  | push =>
    obtain ⟨-, rfl⟩ := he
    rfl
  | pop | print =>
    obtain ⟨v, below, -, rfl⟩ := he
    rfl
  | add | sub | mul | swap | eq | lt | gt | dup =>
    obtain ⟨-, -, -, -, rfl⟩ := he
    rfl
  | div =>
    obtain ⟨-, -, -, -, -, rfl⟩ := he
    rfl
  | jmp n =>
    obtain ⟨h0, -, rfl⟩ := he
    exact Int.toNat_of_nonneg h0
  | jz n | jnz n =>
    obtain ⟨v, below, hs, ⟨hv, rfl⟩ | ⟨hv, h0, -, rfl⟩⟩ := he
    · simp [hs, hv]
    · simp [hs, hv, h0]
  | alloc =>
    obtain ⟨-, -, rfl⟩ := he
    rfl
  | load =>
    obtain ⟨-, -, -, v, -, -, rfl⟩ := he
    rfl
  | store =>
    obtain ⟨v, below, -, -, -, -, rfl⟩ := he
    rfl
  | halt =>
    obtain rfl := he
    rfl

/-- Settles O52: the effect of each instruction names the cells it takes from the stack and those it leaves. -/
theorem stackUseTable : Obligations.StackUseTable := by
  intro i s t _ h ht
  have he : Effect s t i := effect_of_exec h ht
  cases i <;> simp only [Instr.mnemonic, Mnemonic.stackNeed, Mnemonic.pops, Mnemonic.pushes, State.sp]
  case push =>
    obtain ⟨-, rfl⟩ := he
    simp
  case pop | print =>
    obtain ⟨v, below, hs, rfl⟩ := he
    simp [hs]
  case dup =>
    obtain ⟨v, below, hs, -, rfl⟩ := he
    simp [hs]
  case add | sub | mul | swap | eq | lt | gt =>
    obtain ⟨a, b, below, hs, rfl⟩ := he
    simp [hs]
  case div =>
    obtain ⟨a, b, below, hs, -, rfl⟩ := he
    simp [hs]
  case jmp | alloc =>
    obtain ⟨-, -, rfl⟩ := he
    simp
  case jz | jnz =>
    obtain ⟨v, below, hs, ⟨-, rfl⟩ | ⟨-, -, -, rfl⟩⟩ := he
    · simp [hs]
    · simp [hs]
  case load =>
    obtain ⟨-, -, -, v, -, -, rfl⟩ := he
    simp
  case store =>
    obtain ⟨v, below, hs, -, -, -, rfl⟩ := he
    simp [hs]
  case halt =>
    obtain rfl := he
    simp

/-- Under an injective `OPC` HALT is fetched exactly where its number stands (30_encoding.md R73). -/
theorem fetch_eq_halt_iff {s : State} (ho : s.cfg.opc.Injective) :
    (∃ rest, fetch s = .instr .halt rest) ↔ s.prog[s.ip]? = some (s.cfg.opc.number .halt) := by
  refine ⟨fun ⟨rest, hf⟩ => opcode_of_fetch hf, fun hat => ⟨s.prog.drop (s.ip + 1), ?_⟩⟩
  rw [fetch, List.drop_eq_getElem?_toList_append, hat]
  simp [decode, OpcodeMap.mnemonicOf_number ho, decodeOperand, Mnemonic.form]

/-- Settles O47: a step halts at the end of the program, faults in the fetch (so no HALT stands at `ip`), or executes
an instruction, which is HALT exactly where its number stands. -/
theorem statusMovesOnlyFromRunning : Obligations.StatusMovesOnlyFromRunning := by
  intro s t hc h
  obtain ⟨-, -, -, hinj⟩ := hc
  have hhalt := fetch_eq_halt_iff hinj
  obtain ⟨hr, ⟨hend, rfl⟩ | ⟨hip, ht, e, hf⟩ | ⟨i, rest, hf, he⟩⟩ := step_next h
  · exact ⟨hr, by simp [hend], by simp⟩
  · have hno : s.prog[s.ip]? ≠ some (s.cfg.opc.number .halt) := by simp [← hhalt, hf]
    rcases ht with rfl | rfl
    · exact ⟨hr, by simp [hno, hip], by simp⟩
    · exact ⟨hr, by simp [hno, hip], by simp⟩
  · have hnoend : ¬ s.plen ≤ s.ip := by
      have hin := (fetch_instr hf).2
      have hpos := i.mnemonic.one_le_cells
      omega
    have hi : i = .halt ↔ s.prog[s.ip]? = some (s.cfg.opc.number .halt) := by simp [← hhalt, hf]
    refine ⟨hr, ?_, ferr_of_exec_faulted hr he⟩
    rw [exec_halted_iff hr he, hi, or_iff_right hnoend]

end Sys2Proof.Machine
end

section
/-! Which meanings the model stops in: the shared operations answer a next state wherever what they hand on does
(10_state.md R35 (e), log entry 10). -/

namespace Sys2Proof.Machine

/-- The model answers a next state. -/
def Answers (r : Result) : Prop := ∃ t, r = .next t

theorem answers_next (t : State) : Answers (.next t) := ⟨t, rfl⟩

theorem answers_raise (K : FaultKind) (s : State) : Answers (raise K s) := ⟨_, rfl⟩

theorem answers_pushAndAdvance (v : Int) (n : Nat) (s : State) : Answers (pushAndAdvance v n s) := by
  unfold pushAndAdvance
  split
  · exact answers_raise _ _
  · exact answers_next _

theorem answers_jumpTo (n : Int) (s s' : State) : Answers (jumpTo n s s') := by
  unfold jumpTo
  split
  · exact answers_raise _ _
  · exact answers_next _

theorem answers_withTop {s : State} {k : Int → List Int → Result} (h : ∀ v below, Answers (k v below)) :
    Answers (withTop s k) := by
  unfold withTop
  split
  · exact h _ _
  · exact answers_raise _ _

theorem answers_withTopTwo {s : State} {k : Int → Int → List Int → Result} (h : ∀ a b below, Answers (k a b below)) :
    Answers (withTopTwo s k) := by
  unfold withTopTwo
  split
  · exact h _ _ _
  · exact answers_raise _ _

theorem answers_binary (f : Int → Int → Int) (s : State) : Answers (binary f s) :=
  answers_withTopTwo fun _ _ _ => answers_next _

theorem answers_condJump (taken : Int → Bool) (n : Int) (s : State) : Answers (condJump taken n s) := by
  refine answers_withTop fun v below => ?_
  split
  · exact answers_jumpTo _ _ _
  · exact answers_next _

/-- The check of the index faults, or the slot is in range. -/
theorem answers_withSlot {i : Int} {s : State} {k : Nat → Result} (h : s.ValidSlot i → Answers (k i.toNat)) :
    Answers (withSlot i s k) := by
  unfold withSlot
  split
  · exact answers_raise _ _
  · exact h ⟨by omega, by omega⟩

/-- A slot can be used, or its flag is clear under `UNALLOC_POLICY = fault` (46_varmem.md R158). -/
theorem usable_or_clear (s : State) (n : Nat) :
    s.Usable n ∨ (s.cfg.unallocPolicy = .fault ∧ s.allocFlag n = false) := by
  cases hp : s.cfg.unallocPolicy with
  | zero => exact .inl (.inl hp)
  | fault =>
    cases hf : s.allocFlag n with
    | true => exact .inl (.inr hf)
    | false => exact .inr ⟨rfl, rfl⟩

/-- The check of the flag faults, or the policy lets the slot be used. -/
theorem answers_ifAllocated {n : Nat} {s : State} {r : Result} (h : s.Usable n → Answers r) :
    Answers (ifAllocated n s r) := by
  rcases usable_or_clear s n with hu | ⟨hp, hf⟩
  · rw [ifAllocated_usable hu]
    exact h hu
  · rw [ifAllocated_clear hp hf]
    exact answers_raise _ _

/-- LOAD answers a next state unless its slot is usable and holds no value. -/
theorem answers_load {i : Int} {s : State} (h : s.ValidSlot i → s.Usable i.toNat → s.readSlot i.toNat ≠ none) :
    Answers (exec (.load i) s) := by
  rw [exec_load]
  refine answers_withSlot fun hvalid => answers_ifAllocated fun husable => ?_
  obtain ⟨v, hv⟩ := Option.ne_none_iff_exists'.mp (h hvalid husable)
  simp only [hv]
  exact answers_pushAndAdvance _ _ _

/-- LOAD of a usable slot without a value is the model's stop. -/
theorem load_valueless {i : Int} {s : State} (hvalid : s.ValidSlot i) (husable : s.Usable i.toNat)
    (hnone : s.readSlot i.toNat = none) : exec (.load i) s = .fault .slotHoldsNoValue := by
  rw [exec_load, withSlot_valid hvalid.1 hvalid.2, ifAllocated_usable husable, hnone]

/-- Every instruction but LOAD answers a next state. -/
theorem answers_exec {i : Instr} (hi : ∀ n, i ≠ .load n) (s : State) : Answers (exec i s) := by
  cases i with
  | push => exact answers_pushAndAdvance _ _ _
  | pop | print => exact answers_withTop fun _ _ => answers_next _
  | add | sub | mul | eq | lt | gt => exact answers_binary _ _
  | div =>
    refine answers_withTopTwo fun a b below => ?_
    split
    · exact answers_raise _ _
    · exact answers_next _
  | dup => exact answers_withTop fun _ _ => answers_pushAndAdvance _ _ _
  | swap => exact answers_withTopTwo fun _ _ _ => answers_next _
  | jmp => exact answers_jumpTo _ _ _
  | jz | jnz => exact answers_condJump _ _ _
  | alloc =>
    rw [exec_alloc]
    exact answers_withSlot fun _ => answers_next _
  | load n => exact absurd rfl (hi n)
  | store =>
    exact answers_withTop fun _ _ => answers_withSlot fun _ => answers_ifAllocated fun _ => answers_next _
  | halt => exact answers_next _

/-- Settles O42: only LOAD can stop, and it does exactly on a usable slot of the declared size without a value. -/
theorem onlyAValuelessSlotStopsTheModel : Obligations.OnlyAValuelessSlotStopsTheModel := by
  intro i s
  by_cases hload : ∃ n, i = .load n
  · obtain ⟨n, rfl⟩ := hload
    by_cases hnone : s.ValidSlot n ∧ s.Usable n.toNat ∧ s.readSlot n.toNat = none
    · obtain ⟨hvalid, husable, hnone⟩ := hnone
      exact .inr ⟨load_valueless hvalid husable hnone, n, rfl, hvalid, husable, hnone⟩
    · exact .inl (answers_load fun hvalid husable hn => hnone ⟨hvalid, husable, hn⟩)
  · exact .inl (answers_exec (not_exists.mp hload) s)

end Sys2Proof.Machine
end

section
/-! The text form of an emitted cell is its decimal numeral (10_state.md R30). The model's digits are Mathlib's
`Nat.digits 10`, most significant first, but for the single digit 0 of zero. -/

namespace Sys2Proof.Machine

/-- With enough fuel the digits put before `acc` are those of `n`, most significant first. -/
theorem digitsBefore_eq (fuel n : Nat) (acc : List Nat) (hn : n ≠ 0) (hfuel : n < 10 ^ fuel) :
    digitsBefore fuel n acc = (Nat.digits 10 n).reverse ++ acc := by
  induction fuel generalizing n acc with
  | zero => exact absurd (by simpa using hfuel) hn
  | succ fuel ih =>
    rw [digitsBefore]
    split
    · rename_i hlt
      simp [Nat.digits_of_lt 10 n hn hlt]
    · rw [ih (n / 10) (n % 10 :: acc) (by omega) (Nat.div_lt_of_lt_mul (by rwa [pow_succ'] at hfuel)),
        Nat.digits_def' (by decide) (Nat.pos_of_ne_zero hn)]
      simp

theorem decimalDigits_zero : decimalDigits 0 = [0] := by decide

/-- The fuel `log2 n + 1` is enough, since `n < 2 ^ (log2 n + 1)`. -/
theorem decimalDigits_of_ne_zero {n : Nat} (hn : n ≠ 0) : decimalDigits n = (Nat.digits 10 n).reverse := by
  have hfuel : n < 10 ^ (n.log2 + 1) :=
    calc n < 2 ^ (n.log2 + 1) := Nat.lt_log2_self
      _ ≤ 10 ^ (n.log2 + 1) := Nat.pow_le_pow_left (by decide) _
  simpa [decimalDigits] using digitsBefore_eq (n.log2 + 1) n [] hn hfuel

theorem decimalDigits_ne_nil (n : Nat) : decimalDigits n ≠ [] := by
  by_cases hn : n = 0
  · simp [hn, decimalDigits_zero]
  · simp [decimalDigits_of_ne_zero hn, Nat.digits_ne_nil_iff_ne_zero, hn]

theorem decimalDigits_lt_ten (n : Nat) : ∀ d ∈ decimalDigits n, d < 10 := by
  by_cases hn : n = 0
  · simp [hn, decimalDigits_zero]
  · intro d hd
    rw [decimalDigits_of_ne_zero hn, List.mem_reverse] at hd
    exact Nat.digits_lt_base (by decide) hd

/-- No leading zeros: only zero's own numeral begins with 0. -/
theorem decimalDigits_of_head_zero {n : Nat} (h : (decimalDigits n).head? = some 0) : decimalDigits n = [0] := by
  by_cases hn : n = 0
  · rw [hn, decimalDigits_zero]
  · rw [decimalDigits_of_ne_zero hn, List.head?_reverse] at h
    exact absurd (List.getLast_of_getLast?_eq_some h) (Nat.getLast_digit_ne_zero 10 hn)

/-- Read from the most significant digit on, the digits have the value `n`. -/
theorem decimalDigits_value (n : Nat) : (decimalDigits n).foldl (fun m d => 10 * m + d) 0 = n := by
  by_cases hn : n = 0
  · simp [hn, decimalDigits_zero]
  · calc (decimalDigits n).foldl (fun m d => 10 * m + d) 0
        = (Nat.digits 10 n).foldr (fun d m => d + 10 * m) 0 := by
          rw [decimalDigits_of_ne_zero hn, List.foldl_reverse]
          simp only [Nat.add_comm]
      _ = Nat.ofDigits 10 (Nat.digits 10 n) := (Nat.ofDigits_eq_foldr 10 _).symm
      _ = n := Nat.ofDigits_digits 10 n

/-- Settles O16: the digits are `decimalDigits` of the magnitude. -/
theorem printedTextIsDecimal : Obligations.PrintedTextIsDecimal := fun v =>
  ⟨decimalDigits v.natAbs, rfl, decimalDigits_ne_nil _, decimalDigits_lt_ten _, decimalDigits_of_head_zero,
    decimalDigits_value _⟩

end Sys2Proof.Machine
end

section
/-! A step depends on no program cell but those it fetches (10_state.md R32): the meanings see the program through
its length alone, and the fetch decodes the cells that `programReads` lists. -/

namespace Sys2Proof.Machine

/-- The state with another program in place. -/
def State.withProg (p : List Int) (s : State) : State := { s with prog := p }

/-- The answer with another program in place in the next state. -/
def Result.withProg (p : List Int) : Result → Result
  | .next t => .next (t.withProg p)
  | .fault r => .fault r
  | .refused r => .refused r

/-! ### The meanings: each shared operation commutes with the change of program -/

section Meanings

variable {p : List Int} {s : State}

theorem pushAndAdvance_withProg (v : Int) (n : Nat) :
    pushAndAdvance v n (s.withProg p) = Result.withProg p (pushAndAdvance v n s) := by
  rw [pushAndAdvance, pushAndAdvance, apply_ite (Result.withProg p)]
  rfl

/-- A jump's check compares with the program's length alone. -/
theorem jumpTo_withProg (hlen : p.length = s.plen) (n : Int) (s' : State) :
    jumpTo n (s.withProg p) (s'.withProg p) = Result.withProg p (jumpTo n s s') := by
  have hplen : (s.withProg p).plen = s.plen := hlen
  rw [jumpTo, jumpTo, hplen, apply_ite (Result.withProg p)]
  rfl

theorem withTop_withProg {k k' : Int → List Int → Result}
    (h : ∀ v below, k' v below = Result.withProg p (k v below)) :
    withTop (s.withProg p) k' = Result.withProg p (withTop s k) := by
  cases hs : s.stk with
  | nil =>
    rw [withTop_nil hs, withTop_nil (s := s.withProg p) hs]
    rfl
  | cons v below => rw [withTop_cons hs, withTop_cons (s := s.withProg p) hs, h]

theorem withTopTwo_withProg {k k' : Int → Int → List Int → Result}
    (h : ∀ a b below, k' a b below = Result.withProg p (k a b below)) :
    withTopTwo (s.withProg p) k' = Result.withProg p (withTopTwo s k) := by
  match hs : s.stk with
  | [] | [_] =>
    have hshort : s.sp < 2 := by simp [State.sp, hs]
    rw [withTopTwo_short hshort, withTopTwo_short (s := s.withProg p) hshort]
    rfl
  | a :: b :: below => rw [withTopTwo_cons hs, withTopTwo_cons (s := s.withProg p) hs, h]

theorem withSlot_withProg {i : Int} {k k' : Nat → Result} (h : ∀ n, k' n = Result.withProg p (k n)) :
    withSlot i (s.withProg p) k' = Result.withProg p (withSlot i s k) := by
  rw [withSlot, withSlot, h, apply_ite (Result.withProg p)]
  rfl

theorem ifAllocated_withProg {n : Nat} {r r' : Result} (h : r' = Result.withProg p r) :
    ifAllocated n (s.withProg p) r' = Result.withProg p (ifAllocated n s r) := by
  rw [ifAllocated, ifAllocated, h, apply_ite (Result.withProg p)]
  rfl

theorem condJump_withProg (hlen : p.length = s.plen) (taken : Int → Bool) (n : Int) :
    condJump taken n (s.withProg p) = Result.withProg p (condJump taken n s) := by
  refine withTop_withProg fun v below => ?_
  split
  · exact jumpTo_withProg hlen n (s.setStk below)
  · rfl

/-- What an instruction does is the same in any program of the same length. -/
theorem exec_withProg (hlen : p.length = s.plen) (i : Instr) :
    exec i (s.withProg p) = Result.withProg p (exec i s) := by
  cases i with
  | push v => exact pushAndAdvance_withProg v 2
  | pop | print => exact withTop_withProg fun _ _ => rfl
  | add | sub | mul | swap | eq | lt | gt => exact withTopTwo_withProg fun _ _ _ => rfl
  | div =>
    refine withTopTwo_withProg fun a b below => ?_
    rw [apply_ite (Result.withProg p)]
    rfl
  | dup => exact withTop_withProg fun v _ => pushAndAdvance_withProg v 1
  | jmp n => exact jumpTo_withProg hlen n s
  | jz n | jnz n => exact condJump_withProg hlen _ n
  | alloc n =>
    rw [exec_alloc, exec_alloc]
    exact withSlot_withProg fun _ => rfl
  | load n =>
    rw [exec_load, exec_load]
    refine withSlot_withProg fun m => ifAllocated_withProg ?_
    have hread : (s.withProg p).readSlot m = s.readSlot m := rfl
    rw [hread]
    cases s.readSlot m with
    | none => rfl
    | some v => exact pushAndAdvance_withProg v 2
  | store n => exact withTop_withProg fun _ _ => withSlot_withProg fun _ => ifAllocated_withProg rfl
  | halt => rfl

end Meanings

/-! ### The fetch -/

/-- The operand stage of a format-S opcode reads no cell (30_encoding.md R71). -/
theorem decodeOperand_of_cells_eq_one {m : Mnemonic} (h : m.cells = 1) :
    ∃ i, ∀ rest, decodeOperand m rest = .instr i rest := by
  cases m with
  | push | jmp | jz | jnz | alloc | load | store => cases h
  | pop | add | sub | mul | div | dup | swap | print | eq | lt | gt | halt => exact ⟨_, fun _ => rfl⟩

/-- The operand stage of a format-O opcode reads the next cell alone (30_encoding.md R72). -/
theorem decodeOperand_of_cells_eq_two {m : Mnemonic} (h : m.cells = 2) (w : Int) :
    ∃ i, ∀ rest, decodeOperand m (w :: rest) = .instr i rest := by
  cases m with
  | push | jmp | jz | jnz | alloc | load | store => exact ⟨_, fun _ => rfl⟩
  | pop | add | sub | mul | div | dup | swap | print | eq | lt | gt | halt => cases h

theorem cells_eq_one_or_two (m : Mnemonic) : m.cells = 1 ∨ m.cells = 2 := by cases m <;> decide

theorem fetch_of_opcode {s : State} {v : Int} {rest : List Int} {m : Mnemonic} (hd : s.prog.drop s.ip = v :: rest)
    (hm : s.cfg.opc.mnemonicOf v = some m) : fetch s = decodeOperand m rest := by
  simp [fetch, hd, decode, hm]

theorem fetch_of_no_opcode {s : State} {v : Int} {rest : List Int} (hd : s.prog.drop s.ip = v :: rest)
    (hm : s.cfg.opc.mnemonicOf v = none) : fetch s = .rejected (.unknownOpcode v) := by
  simp [fetch, hd, decode, hm]

/-- The cells that a step reads, with what stands there: nothing at the end of the program; the cell at `ip` if it
is no opcode, a format-S opcode, or a format-O opcode in the last cell; else the operand too. -/
theorem programReads_cases (s : State) :
    (s.prog.drop s.ip = [] ∧ programReads s = []) ∨
    (∃ v rest, s.prog.drop s.ip = v :: rest ∧ programReads s = [s.ip] ∧
      (s.cfg.opc.mnemonicOf v = none ∨ ∃ m, s.cfg.opc.mnemonicOf v = some m ∧ (m.cells = 1 ∨ rest = []))) ∨
    (∃ v w rest m, s.prog.drop s.ip = v :: w :: rest ∧ programReads s = [s.ip, s.ip + 1] ∧
      s.cfg.opc.mnemonicOf v = some m ∧ m.cells = 2) := by
  cases hd : s.prog.drop s.ip with
  | nil => exact .inl ⟨rfl, by simp [programReads, hd]⟩
  | cons v rest =>
    cases hm : s.cfg.opc.mnemonicOf v with
    | none => exact .inr (.inl ⟨v, rest, rfl, by simp [programReads, hd, hm], .inl hm⟩)
    | some m =>
      rcases cells_eq_one_or_two m with h1 | h2
      · exact .inr (.inl ⟨v, rest, rfl, by simp [programReads, hd, hm, h1], .inr ⟨m, hm, .inl h1⟩⟩)
      · cases rest with
        | nil => exact .inr (.inl ⟨v, [], rfl, by simp [programReads, hd, hm], .inr ⟨m, hm, .inr rfl⟩⟩)
        | cons w rest => exact .inr (.inr ⟨v, w, rest, m, rfl, by simp [programReads, hd, hm, h2], hm, h2⟩)

/-- The cells that a step reads lie inside the program. -/
theorem programReads_lt (s : State) : ∀ k ∈ programReads s, k < s.plen := by
  have hlen : (s.prog.drop s.ip).length = s.plen - s.ip := List.length_drop
  rcases programReads_cases s with ⟨-, hreads⟩ | ⟨v, rest, hd, hreads, -⟩ | ⟨v, w, rest, m, hd, hreads, -⟩
  · simp [hreads]
  · simp only [hd, List.length_cons] at hlen
    simp only [hreads, List.mem_singleton, forall_eq]
    omega
  · simp only [hd, List.length_cons] at hlen
    simp only [hreads, List.mem_cons, List.not_mem_nil, or_false, forall_eq_or_imp, forall_eq]
    omega

/-- The operand cell is the second of the cells from `ip` on. -/
theorem operand_cell {s : State} {v w : Int} {rest : List Int} (h : s.prog.drop s.ip = v :: w :: rest) :
    s.prog[s.ip + 1]? = some w := by
  rw [← List.getElem?_drop, h]
  rfl

theorem drop_eq_cons_of_getElem? {l : List Int} {n : Nat} {v : Int} (h : l[n]? = some v) :
    l.drop n = v :: l.drop (n + 1) := by
  rw [List.drop_eq_getElem?_toList_append, h]
  rfl

section Fetch

variable {s : State} {p : List Int} (hlen : p.length = s.plen) (hagree : ∀ k ∈ programReads s, p[k]? = s.prog[k]?)
include hlen hagree

/-- A program that agrees on the cells read is decoded alike: to the same instruction, or to the same rejection. -/
theorem fetch_withProg :
    (∃ i rest rest', fetch s = .instr i rest ∧ fetch (s.withProg p) = .instr i rest') ∨
      ∃ e, fetch s = .rejected e ∧ fetch (s.withProg p) = .rejected e := by
  rcases programReads_cases s with ⟨hd, -⟩ | ⟨v, rest, hd, hreads, hv⟩ | ⟨v, w, rest, m, hd, hreads, hm, h2⟩
  · have hend : s.plen ≤ s.ip := drop_ip_eq_nil.mp hd
    have hd' : p.drop s.ip = [] := List.drop_eq_nil_of_le (hlen.trans_le hend)
    exact .inr ⟨.noCell, congrArg (decode s.cfg) hd, congrArg (decode s.cfg) hd'⟩
  · have hip : p[s.ip]? = some v := (hagree s.ip (by simp [hreads])).trans (opcode_cell hd)
    have hd' : p.drop s.ip = v :: p.drop (s.ip + 1) := drop_eq_cons_of_getElem? hip
    rcases hv with hm | ⟨m, hm, h1 | rfl⟩
    · exact .inr ⟨_, fetch_of_no_opcode hd hm, fetch_of_no_opcode (s := s.withProg p) hd' hm⟩
    · obtain ⟨i, hi⟩ := decodeOperand_of_cells_eq_one h1
      exact .inl ⟨i, _, _, (fetch_of_opcode hd hm).trans (hi _),
        (fetch_of_opcode (s := s.withProg p) hd' hm).trans (hi _)⟩
    · have hlast : p.drop (s.ip + 1) = [] := by
        have hl := congrArg List.length hd
        simp only [List.length_drop, List.length_singleton] at hl
        exact List.drop_eq_nil_of_le (by rw [hlen, State.plen]; omega)
      have hf : fetch s = decodeOperand m [] := fetch_of_opcode hd hm
      have hf' : fetch (s.withProg p) = decodeOperand m [] := fetch_of_opcode (hd'.trans (by rw [hlast])) hm
      cases hdec : decodeOperand m [] with
      | instr i rest => exact .inl ⟨i, rest, rest, hf.trans hdec, hf'.trans hdec⟩
      | rejected e => exact .inr ⟨e, hf.trans hdec, hf'.trans hdec⟩
  · have hip : p[s.ip]? = some v := (hagree s.ip (by simp [hreads])).trans (opcode_cell hd)
    have hip1 : p[s.ip + 1]? = some w := (hagree (s.ip + 1) (by simp [hreads])).trans (operand_cell hd)
    have hd' : p.drop s.ip = v :: w :: p.drop (s.ip + 1 + 1) := by
      rw [drop_eq_cons_of_getElem? hip, drop_eq_cons_of_getElem? hip1]
    obtain ⟨i, hi⟩ := decodeOperand_of_cells_eq_two h2 w
    exact .inl ⟨i, _, _, (fetch_of_opcode hd hm).trans (hi _),
      (fetch_of_opcode (s := s.withProg p) hd' hm).trans (hi _)⟩

theorem runningStep_withProg : runningStep (s.withProg p) = Result.withProg p (runningStep s) := by
  rcases fetch_withProg hlen hagree with ⟨i, rest, rest', hf, hf'⟩ | ⟨e, hf, hf'⟩
  · rw [runningStep, runningStep, hf, hf']
    exact exec_withProg hlen i
  · rw [runningStep, runningStep, hf, hf']
    cases e <;> rfl

end Fetch

/-- Settles O54: the step of a Running core is the same but for the program in place. -/
theorem stepReadsOnlyTheFetchedCells : Obligations.StepReadsOnlyTheFetchedCells := by
  intro s t p hlen hagree h
  have hr : s.status = .running := running_of_step h
  rw [step_running hr] at h
  refine ⟨?_, programReads_lt s⟩
  calc step (s.withProg p) = runningStep (s.withProg p) := step_running hr
    _ = Result.withProg p (runningStep s) := runningStep_withProg hlen hagree
    _ = .next (t.withProg p) := by rw [h]; rfl

end Sys2Proof.Machine
end

section
/-! The frame of variable memory (20_memory.md R53, R58): only ALLOC and STORE write it, each its own slot, and no
step writes the program or the configuration (R60). -/

namespace Sys2Proof.Machine

/-- Settles O48: no way that a step can take writes either. -/
theorem programAndConfigurationAreNeverWritten : Obligations.ProgramAndConfigurationAreNeverWritten :=
  fun _ _ h => (step_constants h).symm

/-! ### What an instruction does to slots and flags -/

/-- The effect of an instruction without a store slot writes neither memory nor a flag. -/
theorem Effect.memory_of_storeSlot?_eq_none {s t : State} {i : Instr} (h : Effect s t i) (hi : i.storeSlot? = none) :
    t.mem = s.mem ∧ t.alloc = s.alloc := by
  cases i with
  | alloc | store => cases hi
  | push =>
    obtain ⟨-, rfl⟩ := h
    exact ⟨rfl, rfl⟩
  | pop | print =>
    obtain ⟨v, below, -, rfl⟩ := h
    exact ⟨rfl, rfl⟩
  | add | sub | mul | swap | eq | lt | gt | dup =>
    obtain ⟨-, -, -, -, rfl⟩ := h
    exact ⟨rfl, rfl⟩
  | div =>
    obtain ⟨a, b, below, -, -, rfl⟩ := h
    exact ⟨rfl, rfl⟩
  | jmp =>
    obtain ⟨-, -, rfl⟩ := h
    exact ⟨rfl, rfl⟩
  | jz | jnz =>
    obtain ⟨v, below, -, ⟨-, rfl⟩ | ⟨-, -, -, rfl⟩⟩ := h
    · exact ⟨rfl, rfl⟩
    · exact ⟨rfl, rfl⟩
  | load =>
    obtain ⟨-, -, -, v, -, -, rfl⟩ := h
    exact ⟨rfl, rfl⟩
  | halt =>
    obtain rfl := h
    exact ⟨rfl, rfl⟩

/-- Everything an instruction can do to variable memory: nothing, as on every fault; ALLOC sets its slot to 0 and
sets the slot's flag; STORE writes its slot and no flag. -/
theorem exec_memory_cases {i : Instr} {s t : State} (h : exec i s = .next t) :
    (∀ j, t.readSlot j = s.readSlot j ∧ t.allocFlag j = s.allocFlag j) ∨
    (∃ n : Int, i = .alloc n ∧ ∀ j, t.readSlot j = (if n.toNat = j then some 0 else s.readSlot j) ∧
      t.allocFlag j = (decide (j = n.toNat) || s.allocFlag j)) ∨
    (∃ (n v : Int), i = .store n ∧ ∀ j, t.readSlot j = (if n.toNat = j then some v else s.readSlot j) ∧
      t.allocFlag j = s.allocFlag j) := by
  rcases exec_next h with ⟨K, -, rfl⟩ | he
  · exact .inl fun _ => ⟨rfl, rfl⟩
  · by_cases hi : i.storeSlot? = none
    · obtain ⟨hmem, halloc⟩ := he.memory_of_storeSlot?_eq_none hi
      have hpol : t.cfg.unallocPolicy = s.cfg.unallocPolicy := congrArg _ he.constants.1
      exact .inl fun j => ⟨readSlot_congr hmem hpol j, allocFlag_congr halloc j⟩
    · cases i with
      | alloc n =>
        obtain ⟨-, -, rfl⟩ := he
        exact .inr (.inl ⟨n, rfl, fun j => ⟨readSlot_writeSlot s _ j 0, allocFlag_setAlloc (s.writeSlot _ 0) _ j⟩⟩)
      | store n =>
        obtain ⟨v, below, -, -, -, -, rfl⟩ := he
        exact .inr (.inr ⟨n, v, rfl, fun j => ⟨readSlot_writeSlot s _ j v, rfl⟩⟩)
      | _ => exact absurd rfl hi

/-- Settles O50: in each of the three cases the slots other than the written one, and the flags other than ALLOC's,
are as before. -/
theorem memoryChangesOnlyByAllocAndStore : Obligations.MemoryChangesOnlyByAllocAndStore := by
  intro i s t h
  rcases exec_memory_cases h with hsame | ⟨n, rfl, halloc⟩ | ⟨n, v, rfl, hstore⟩
  · exact ⟨fun j _ => hsame j, fun j hj => (hsame j).2.trans hj, fun j hj => absurd (hsame j).2 hj⟩
  · refine ⟨fun j hj => ?_, fun j hj => ?_, fun j hj => ?_⟩
    · have hne : j ≠ n.toNat := fun hjn => hj (congrArg some hjn)
      simp [halloc j, hne, hne.symm]
    · simp [halloc j, hj]
    · obtain rfl : j = n.toNat := by
        by_contra hne
        exact hj (by simp [halloc j, hne])
      exact ⟨by simp [halloc n.toNat], n, rfl, rfl⟩
  · refine ⟨fun j hj => ?_, fun j hj => (hstore j).2.trans hj, fun j hj => absurd (hstore j).2 hj⟩
    have hne : n.toNat ≠ j := fun hnj => hj (congrArg some hnj.symm)
    exact ⟨by simp [hstore j, hne], (hstore j).2⟩

/-! ### A value that is stored stays until it is loaded -/

/-- `room(1)` holds: the push happens. -/
theorem pushAndAdvance_room {s : State} (h : s.sp < s.cfg.stackCap) (v : Int) (n : Nat) :
    pushAndAdvance v n s = .next ((s.setStk (v :: s.stk)).advance n) := by
  rw [pushAndAdvance, if_neg (by omega)]

/-- STORE with an operand and a slot that it may use (46_varmem.md R157). -/
theorem exec_store_usable {s : State} {n v : Int} {below : List Int} (hs : s.stk = v :: below) (hn : s.ValidSlot n)
    (hu : s.Usable n.toNat) :
    exec (.store n) s = .next (((s.writeSlot n.toNat v).setStk below).advance 2) := by
  rw [exec_store, withTop_cons hs, withSlot_valid hn.1 hn.2, ifAllocated_usable hu]

/-- LOAD of a slot that it may use and that holds a value, with room on the stack (46_varmem.md R156). -/
theorem exec_load_usable {s : State} {n v : Int} (hn : s.ValidSlot n) (hu : s.Usable n.toNat)
    (hv : s.readSlot n.toNat = some v) (hroom : s.sp < s.cfg.stackCap) :
    exec (.load n) s = .next ((s.setStk (v :: s.stk)).advance 2) := by
  rw [exec_load, withSlot_valid hn.1 hn.2, ifAllocated_usable hu, hv]
  exact pushAndAdvance_room hroom v 2

/-- No instruction makes a slot unusable: the policy is constant and no flag is cleared (10_state.md R27). -/
theorem usable_of_exec {i : Instr} {s t : State} (h : exec i s = .next t) {n : Nat} (hu : s.Usable n) :
    t.Usable n := by
  obtain ⟨hcfg, -⟩ := exec_constants h
  obtain ⟨-, hflags, -⟩ := memoryChangesOnlyByAllocAndStore i s t h
  exact hu.imp (fun hp => by rw [hcfg, hp]) (hflags n)

/-- Settles O27: the STORE leaves its value in the slot, the instruction between changes neither the slot nor the
right to use it, and so the LOAD finds the value. -/
theorem loadReturnsTheLatestStore : Obligations.LoadReturnsTheLatestStore := by
  intro s t u n i v below hs hn hu hstore hi hexec hroom
  have huu : u.Usable n.toNat := usable_of_exec hexec (usable_of_exec hstore hu)
  have hnu : u.ValidSlot n := by
    rw [State.ValidSlot, (exec_constants hexec).1, (exec_constants hstore).1]
    exact hn
  have hread : u.readSlot n.toNat = some v := by
    obtain ⟨hframe, -, -⟩ := memoryChangesOnlyByAllocAndStore i t u hexec
    rw [exec_store_usable hs hn hu] at hstore
    obtain rfl : ((s.writeSlot n.toNat v).setStk below).advance 2 = t := by simpa using hstore
    rw [(hframe n.toNat hi.symm).1]
    simp
  exact exec_load_usable hnu huu hread hroom

end Sys2Proof.Machine
end

section
/-! Encoding and decoding (30_encoding.md R71 to R76, R81): the two are inverse on cells, over whole programs, and
through the words of the opcode table. -/

namespace Sys2Proof.Machine

/-! ### Cells and instructions -/

/-- Under an injective `OPC` the decoder finds an encoded instruction, whatever follows its cells (30_encoding.md
R73, R75). -/
theorem decode_encode_append {c : Config} (ho : c.opc.Injective) (i : Instr) (rest : List Int) :
    decode c (encode c i ++ rest) = .instr i rest := by
  simp [encode, decode, OpcodeMap.mnemonicOf_number ho, decodeOperand_own]

/-- The cells of an instruction are its opcode number and its operand, if any. -/
theorem mem_encode {c : Config} {i : Instr} {v : Int} :
    v ∈ encode c i ↔ v = c.opc.number i.mnemonic ∨ v ∈ i.operand? := by
  simp [encode]

/-- Settles O56: the opcode number finds its own mnemonic, whose operand stage takes the operand; the cells are an
opcode number, which a legal configuration keeps in range, and a well-formed operand. -/
theorem decodeAfterEncodeIsIdentity : Obligations.DecodeAfterEncodeIsIdentity := by
  intro c i rest hc hi
  obtain ⟨-, -, hcells, hinj⟩ := hc
  refine ⟨decode_encode_append hinj i rest, fun v hv => ?_⟩
  rcases mem_encode.mp hv with rfl | hop
  · exact hcells i.mnemonic (Mnemonic.mem_all _)
  · exact hi v hop

/-- Settles O57: the first cell is the number of the mnemonic found for it, and the operand follows. -/
theorem encodeAfterDecodeIsIdentity : Obligations.EncodeAfterDecodeIsIdentity := by
  intro c cells rest i h
  obtain ⟨v, rfl, hm⟩ := decode_instr h
  rw [← OpcodeMap.number_of_mnemonicOf hm, encode, List.cons_append]

/-! ### Programs -/

/-- A program has at least as many cells as instructions. -/
theorem length_le_length_encodeProgram (c : Config) (is : List Instr) : is.length ≤ (encodeProgram c is).length := by
  induction is with
  | nil => exact Nat.le_refl 0
  | cons i is ih =>
    have hi : 1 ≤ (encode c i).length := encode_length c i ▸ i.mnemonic.one_le_cells
    simp only [encodeProgram, List.flatMap_cons, List.length_append, List.length_cons] at ih ⊢
    omega

/-- With fuel for each instruction the walk over a program's cells finds the program (30_encoding.md R75). -/
theorem walkProgram_encodeProgram {c : Config} (ho : c.opc.Injective) (is : List Instr) (fuel : Nat)
    (hf : is.length ≤ fuel) : walkProgram c fuel (encodeProgram c is) = some is := by
  induction is generalizing fuel with
  | nil => cases fuel <;> rfl
  | cons i is ih =>
    cases fuel with
    | zero => cases hf
    | succ fuel =>
      have hrest := ih fuel (Nat.le_of_succ_le_succ hf)
      rw [encodeProgram] at hrest
      simp [encodeProgram, walkProgram, decode_encode_append ho, hrest]

/-- Settles O58: the walk's fuel, one for each cell, is enough for every instruction. -/
theorem programWalkFindsTheInstructions : Obligations.ProgramWalkFindsTheInstructions := by
  intro c is hc
  obtain ⟨-, -, -, hinj⟩ := hc
  exact walkProgram_encodeProgram hinj is _ (length_le_length_encodeProgram c is)

/-! ### Words of the opcode table -/

/-- `sext` reads the low `w` bits alone: what stands above them is not seen (00_scope.md R8). -/
theorem sextBits_add_mul {w lo : Nat} (hi : Nat) : sextBits w (lo + hi * 2 ^ w) = sextBits w lo := by
  simp [sextBits, zextBits]

/-- A 64-bit word is read as the cells of its two halves (log entry 21). -/
theorem tableCells_halves {lo hi : Nat} (hlo : lo < 2 ^ 32) (hhi : hi < 2 ^ 32) :
    tableCells 64 (lo + hi * 2 ^ 32) = [sextBits 32 lo, sextBits 32 hi] := by
  have hfits : zextBits 64 (lo + hi * 2 ^ 32) = lo + hi * 2 ^ 32 := Nat.mod_eq_of_lt (by omega)
  have hshift : (lo + hi * 2 ^ 32) >>> 32 = hi := by omega
  have hwidth : referenceConfig.width = 32 := rfl
  rw [tableCells, hfits, hwidth, hshift, sextBits_add_mul]

/-- The word of a well-formed instruction is read as its opcode number and its operand, or 0 where it has none. -/
theorem tableCells_encodeTableWord {i : Instr} (hi : i.WellFormed referenceConfig) :
    tableCells 64 (encodeTableWord i) = [referenceOpcodes.number i.mnemonic, i.operand?.getD 0] := by
  have hop : isCell 32 (i.operand?.getD 0) := by
    cases h : i.operand? with
    | none => decide
    | some v => exact hi v h
  calc tableCells 64 (encodeTableWord i)
    _ = [sextBits 32 (bitsOfCell 32 (referenceOpcodes.number i.mnemonic)),
          sextBits 32 (bitsOfCell 32 (i.operand?.getD 0))] :=
      tableCells_halves (bitsOfCell_lt 32 _) (bitsOfCell_lt 32 _)
    _ = [referenceOpcodes.number i.mnemonic, i.operand?.getD 0] := by
      rw [sextBits_bitsOfCell (by decide) (referenceOpcodes_isCell _ (Mnemonic.mem_all _)),
        sextBits_bitsOfCell (by decide) hop]

/-- The opcode number and the operand, or 0 where there is none, start with the instruction's cells: a format-S
instruction leaves the second cell unread (30_encoding.md R71). -/
theorem number_operand_eq_encode_append (c : Config) (i : Instr) :
    ∃ rest, [c.opc.number i.mnemonic, i.operand?.getD 0] = encode c i ++ rest := by
  unfold encode
  cases i.operand? with
  | none => exact ⟨[0], rfl⟩
  | some v => exact ⟨[], rfl⟩

/-- Settles O59: the word's two cells start with the instruction's, which the decoder finds. -/
theorem tableWordRoundTrip : Obligations.TableWordRoundTrip := by
  intro i hi
  obtain ⟨rest, hcells⟩ := number_operand_eq_encode_append referenceConfig i
  have hword : tableCells 64 (encodeTableWord i) = encode referenceConfig i ++ rest :=
    (tableCells_encodeTableWord hi).trans hcells
  rw [decodeTableWord, hword, decode_encode_append referenceOpcodes_injective]

/-- Settles O60: the words are closed numerals, and the decoder is run on them. -/
theorem tableWordsDecode : Obligations.TableWordsDecode := by
  unfold Obligations.TableWordsDecode
  decide

end Sys2Proof.Machine
end

section
/-! The fetch-decode-execute loop (40_execution_loop.md): what a step from Running is, as an equation for each answer
of the fetch; which fault it reports where two conditions hold at once (R96); and that it is never stuck (R100). -/

namespace Sys2Proof.Machine

/-! ### A step from Running, by what the fetch answers -/

/-- R90: an instruction that is fetched is executed, and the step adds nothing around it. -/
theorem step_of_instr {s : State} {i : Instr} {rest : List Int} (hr : s.status = .running)
    (hf : fetch s = .instr i rest) : step s = exec i s := by
  simp [step_running hr, runningStep, hf]

theorem step_of_rejected {s : State} {e : DecodeError} (hr : s.status = .running) (hf : fetch s = .rejected e) :
    step s = fetchFailed e s := by
  simp [step_running hr, runningStep, hf]

/-- Settles O31: decoding the cells from `ip` on is the fetch. -/
theorem stepExecutesTheDecodedInstruction : Obligations.StepExecutesTheDecodedInstruction :=
  fun _ _ _ hr hf => step_of_instr hr hf

/-- Settles O32: the loop has an arm for each terminal status, and both answer the named stop. -/
theorem terminalStatesHaveNoStep : Obligations.TerminalStatesHaveNoStep :=
  fun _ => step_terminal

/-- At the end of the program the fetch reads no cell (40_execution_loop.md R91). -/
theorem fetch_of_plen_le_ip {s : State} (h : s.plen ≤ s.ip) : fetch s = .rejected .noCell := by
  rw [fetch, drop_ip_eq_nil.mpr h, decode]

/-- Settles O29: the fetch finds no cell, which ends the run. -/
theorem endOfProgramHalts : Obligations.EndOfProgramHalts :=
  fun _ hr hend => step_of_rejected hr (fetch_of_plen_le_ip hend)

/-! ### A fault writes `status` and `ferr` alone -/

/-- The faulted state tells the fault kind. -/
@[simp] theorem State.faultedWith_inj {s : State} {K K' : FaultKind} :
    s.faultedWith K = s.faultedWith K' ↔ K = K' :=
  ⟨fun h => Option.some.inj (congrArg State.ferr h), fun h => h ▸ rfl⟩

/-- An instruction that ends Faulted has raised one of its own faults: no effect leaves that status. -/
theorem exec_faulted {i : Instr} {s t : State} (hr : s.status = .running) (h : exec i s = .next t)
    (ht : t.status = .faulted) : ∃ K ∈ i.mnemonic.faultKinds, t = s.faultedWith K :=
  (exec_next h).resolve_right fun he => he.not_faulted hr ht

/-- Settles O33: a clean stop is not Faulted, and a fault of the fetch or of the instruction is taken by `raise`. -/
theorem faultsArePrecise : Obligations.FaultsArePrecise := by
  intro s t h ht
  obtain ⟨hr, ⟨-, rfl⟩ | ⟨-, rfl | rfl, -⟩ | ⟨i, rest, -, he⟩⟩ := step_next h
  · cases ht
  · exact ⟨.unknownInstruction, rfl⟩
  · exact ⟨.programBoundsError, rfl⟩
  · obtain ⟨K, -, rfl⟩ := exec_faulted hr he ht
    exact ⟨K, rfl⟩

/-! ### UnknownInstruction -/

/-- No instruction raises UnknownInstruction once it is decoded (60_exceptions.md R175). -/
theorem unknownInstruction_not_mem_faultKinds (m : Mnemonic) : .unknownInstruction ∉ m.faultKinds := by
  cases m <;> decide

theorem exec_ne_unknownInstruction {i : Instr} {s : State} (hr : s.status = .running) :
    exec i s ≠ .next (s.faultedWith .unknownInstruction) := by
  intro h
  obtain ⟨K, hK, heq⟩ := exec_faulted hr h rfl
  obtain rfl := State.faultedWith_inj.mp heq
  exact unknownInstruction_not_mem_faultKinds _ hK

/-- A failed fetch raises UnknownInstruction only for a cell that is no opcode number. -/
theorem fetchFailed_eq_unknownInstruction {e : DecodeError} {s : State}
    (h : fetchFailed e s = .next (s.faultedWith .unknownInstruction)) : ∃ v, e = .unknownOpcode v := by
  cases e with
  | noCell => cases congrArg State.status (Host.Outcome.next.inj h)
  | unknownOpcode v => exact ⟨v, rfl⟩
  | missingOperand m => cases State.faultedWith_inj.mp (raise_next h)

/-- The fetch rejects an opcode cell exactly if the cell at `ip` is no opcode number (40_execution_loop.md R92). -/
theorem fetch_eq_unknownOpcode_iff {s : State} {v : Int} :
    fetch s = .rejected (.unknownOpcode v) ↔ s.prog[s.ip]? = some v ∧ ∀ m, s.cfg.opc.number m ≠ v := by
  constructor
  · intro hf
    obtain ⟨he, -⟩ | ⟨w, rest, he, hd, hno⟩ | ⟨w, m, he, -⟩ := decode_rejected hf
    · cases he
    · cases he
      exact ⟨opcode_cell hd, OpcodeMap.mnemonicOf_eq_none.mp hno⟩
    · cases he
  · rintro ⟨hv, hno⟩
    exact fetch_of_no_opcode (drop_eq_cons_of_getElem? hv) (OpcodeMap.mnemonicOf_eq_none.mpr hno)

/-- Settles O30: neither an executed instruction nor any other rejection of the fetch raises UnknownInstruction. -/
theorem unknownOpcodeFaults : Obligations.UnknownOpcodeFaults := by
  intro s hr
  simp only [← fetch_eq_unknownOpcode_iff]
  constructor
  · intro h
    cases hf : fetch s with
    | instr i rest => exact absurd ((step_of_instr hr hf).symm.trans h) (exec_ne_unknownInstruction hr)
    | rejected e =>
      obtain ⟨v, rfl⟩ := fetchFailed_eq_unknownInstruction ((step_of_rejected hr hf).symm.trans h)
      exact ⟨v, rfl⟩
  · rintro ⟨v, hf⟩
    exact step_of_rejected hr hf

/-! ### The order of the checks (R96) -/

/-- The operand stage of a format-O opcode is rejected where no cell follows (30_encoding.md R72). -/
theorem decodeOperand_nil_of_cells_eq_two {m : Mnemonic} (h : m.cells = 2) :
    decodeOperand m [] = .rejected (.missingOperand m) := by
  cases m with
  | push | jmp | jz | jnz | alloc | load | store => rfl
  | pop | add | sub | mul | div | dup | swap | print | eq | lt | gt | halt => cases h

/-- A missing operand faults in the fetch, whatever the stack holds (40_execution_loop.md R93). -/
theorem step_of_operandMissing {s : State} {m : Mnemonic} (h2 : m.cells = 2) (h : s.OperandMissing m) :
    step s = .next (s.faultedWith .programBoundsError) := by
  obtain ⟨⟨-, -, -, hinj⟩, ⟨hr, hop⟩, hlast⟩ := h
  have hnil : s.prog.drop (s.ip + 1) = [] := List.drop_eq_nil_of_le hlast.ge
  have hf : fetch s = decodeOperand m (s.prog.drop (s.ip + 1)) :=
    fetch_of_opcode (drop_eq_cons_of_getElem? hop) (OpcodeMap.mnemonicOf_number hinj m)
  rw [hnil, decodeOperand_nil_of_cells_eq_two h2] at hf
  exact step_of_rejected hr hf

theorem withTop_of_sp_eq_zero {s : State} (h : s.sp = 0) (k : Int → List Int → Result) :
    withTop s k = .next (s.faultedWith .stackUnderflow) :=
  withTop_nil (List.length_eq_zero_iff.mp h) k

theorem withSlot_not_valid {s : State} {i : Int} (h : ¬ s.ValidSlot i) (k : Nat → Result) :
    withSlot i s k = .next (s.faultedWith .memoryIndexOutOfRange) :=
  withSlot_invalid (by simp only [State.ValidSlot] at h; omega) k

theorem ifAllocated_not_usable {s : State} {n : Nat} (h : ¬ s.Usable n) (r : Result) :
    ifAllocated n s r = .next (s.faultedWith .unallocatedSlot) := by
  obtain ⟨hp, hf⟩ := (usable_or_clear s n).resolve_left h
  exact ifAllocated_clear hp hf r

/-- Settles O41: the operand fetch comes before the instruction, and each instruction hands its operands on from one
check to the next, so that the first check to fail answers. -/
theorem firstCheckInOrderDecidesTheFault : Obligations.FirstCheckInOrderDecidesTheFault := by
  refine ⟨fun s h _ => step_of_operandMissing rfl h, fun s h _ => step_of_operandMissing rfl h,
    fun s h _ => step_of_operandMissing rfl h, fun s n hsp _ => withTop_of_sp_eq_zero hsp _, fun s n hn _ => ?_,
    fun s n hn hu _ => ?_, fun s hs => ?_, fun s t hsp _ => withTop_of_sp_eq_zero hsp _⟩
  · rw [exec_load, withSlot_not_valid hn]
  · rw [exec_load, withSlot_valid hn.1 hn.2, ifAllocated_not_usable hu]
  · rw [exec_div, withTopTwo_short (by simp [State.sp, hs]), raise]

/-! ### No Running core is stuck (R100) -/

/-- With the invariant a slot that the policy lets LOAD use holds a value (10_state.md R35 (e), 46_varmem.md R158). -/
theorem State.Inv.readSlot_of_usable {s : State} (h : s.Inv) {n : Nat} (hu : s.Usable n) : s.readSlot n ≠ none := by
  rcases hu with hz | hflag
  · unfold State.readSlot
    split
    · simp
    · simp [hz, unlistedSlot]
  · obtain ⟨v, hv, -⟩ := h.readSlot_of_allocFlag hflag
    simp [hv]

/-- With the invariant every instruction answers a next state: the model's own stop is shut out. -/
theorem State.Inv.answers_exec {s : State} (h : s.Inv) (i : Instr) : Answers (Machine.exec i s) := by
  rcases onlyAValuelessSlotStopsTheModel i s with ht | ⟨-, n, -, -, hu, hnone⟩
  · exact ht
  · exact absurd hnone (h.readSlot_of_usable hu)

theorem answers_fetchFailed (e : DecodeError) (s : State) : Answers (fetchFailed e s) := by
  cases e with
  | noCell => exact answers_next _
  | unknownOpcode => exact answers_raise _ _
  | missingOperand => exact answers_raise _ _

theorem State.Inv.answers_step {s : State} (h : s.Inv) (hr : s.status = .running) : Answers (step s) := by
  cases hf : fetch s with
  | instr i rest =>
    rw [step_of_instr hr hf]
    exact h.answers_exec i
  | rejected e =>
    rw [step_of_rejected hr hf]
    exact answers_fetchFailed e s

/-- With the invariant `ferr` holds a kind in Faulted and in no other status (10_state.md R35 (c)). -/
theorem State.Inv.status_cases {s : State} (h : s.Inv) :
    (s.status = .running ∧ s.ferr = none) ∨ (s.status = .halted ∧ s.ferr = none) ∨
      ∃ K, s.status = .faulted ∧ s.ferr = some K := by
  have hferr := h.faultedIff
  cases hs : s.status with
  | running => exact .inl ⟨rfl, by simpa [hs] using hferr⟩
  | halted => exact .inr (.inl ⟨rfl, by simpa [hs] using hferr⟩)
  | faulted =>
    obtain ⟨K, hK⟩ := Option.ne_none_iff_exists'.mp (hferr.mp hs)
    exact .inr (.inr ⟨K, rfl, hK⟩)

/-- Settles O46: the step answers a state, which meets the invariant again. -/
theorem runningCoreAlwaysSteps : Obligations.RunningCoreAlwaysSteps := by
  intro s h hr
  obtain ⟨t, ht⟩ := h.answers_step hr
  exact ⟨t, ht, (everyStepKeepsTheRunInvariant s t h ht).status_cases⟩

end Sys2Proof.Machine
end

section
/-! The stack instructions PUSH, POP, DUP, SWAP (41_stack.md R110 to R113), each by the case of the check that it
shares with others. -/

namespace Sys2Proof.Machine

/-- `room(1)` fails: nothing is pushed. -/
theorem pushAndAdvance_full {s : State} (h : s.cfg.stackCap ≤ s.sp) (v : Int) (n : Nat) :
    pushAndAdvance v n s = .next (s.faultedWith .stackOverflow) := by
  rw [pushAndAdvance, if_pos (by omega), raise]

/-- Settles O6: the fetch faults for a missing operand; with the operand, the push depends on `room(1)` alone. -/
theorem pushPushesItsOperand : Obligations.PushPushesItsOperand :=
  ⟨fun _ => rfl, fun _ hmissing => step_of_operandMissing rfl hmissing,
    fun _ v => ⟨fun hfull => pushAndAdvance_full hfull v 2, fun hroom => pushAndAdvance_room hroom v 2⟩⟩

/-- Settles O7: `need(1)` faults on the empty stack and else hands on the cells below the top. -/
theorem popRemovesTheTop : Obligations.PopRemovesTheTop :=
  ⟨rfl, fun _ => ⟨fun hempty => withTop_nil hempty _, fun _ _ hs => withTop_cons hs _⟩⟩

/-- Settles O8: `need(1)` hands on the top, and its push depends on `room(1)`. -/
theorem dupCopiesTheTop : Obligations.DupCopiesTheTop := by
  refine ⟨rfl, fun s => ⟨fun hempty => withTop_nil hempty _, fun v below hs => ?_⟩⟩
  rw [exec_dup, withTop_cons hs]
  refine ⟨fun hfull => pushAndAdvance_full hfull v 1, fun hroom => ?_⟩
  rw [pushAndAdvance_room hroom, hs]
  rfl

/-- SWAP with its two operands on the stack (41_stack.md R113). -/
theorem exec_swap_cons {s : State} {a b : Int} {below : List Int} (hs : s.stk = a :: b :: below) :
    exec .swap s = .next ((s.setStk (b :: a :: below)).advance 1) :=
  withTopTwo_cons hs _

/-- Settles O9: the second SWAP finds the two cells exchanged and puts back the stack of `s`. -/
theorem swapExchangesTheTopTwo : Obligations.SwapExchangesTheTopTwo := by
  refine ⟨rfl, fun s => ⟨fun hshort => withTopTwo_short hshort _, fun a b below hs => ⟨exec_swap_cons hs, ?_⟩⟩⟩
  rw [exec_swap_cons rfl, ← hs]
  rfl

end Sys2Proof.Machine
end

section
/-! The integer laws of the ALU and its instructions ADD, SUB, MUL, DIV (42_arithmetic.md R120 to R126), and the cells
below the operands of an instruction (20_memory.md R50). -/

namespace Sys2Proof.Machine

/-! ### The wrap of sums and at the bottom of the range (R121) -/

/-- A sum is wrapped the same whether or not its first part was wrapped before. -/
theorem wrap_wrap_add (w : Nat) (m n : Int) : wrap w (wrap w m + n) = wrap w (m + n) :=
  wrap_congr (Int.ModEq.add_right n (wrap_emod w m))

theorem isCell_intMax (w : Nat) : isCell w (intMax w) := by
  have hpos := two_pow_pos (w - 1)
  unfold isCell intMax intMin
  omega

/-- One step below the bottom of the range is one turn below its top. -/
theorem wrap_intMin_sub_one {w : Nat} (hw : 1 ≤ w) : wrap w (intMin w - 1) = intMax w := by
  have hturn := intMax_add_one hw
  have htop : intMin w - 1 = intMax w - ((2 ^ w : Nat) : Int) := by omega
  calc wrap w (intMin w - 1)
    _ = wrap w (intMax w) := wrap_congr (by rw [htop, Int.sub_emod_right])
    _ = intMax w := wrap_of_isCell hw (isCell_intMax w)

theorem neg_intMin (w : Nat) : -intMin w = intMax w + 1 := by
  unfold intMin intMax
  omega

/-- The smallest cell is its own negation. -/
theorem wrap_neg_intMin {w : Nat} (hw : 1 ≤ w) : wrap w (-intMin w) = intMin w := by
  rw [neg_intMin, wrap_intMax_add_one hw]

/-- Settles O5: `b - a` is `-a + b`, whose first part may be wrapped; the corners are the two ends of the range. -/
theorem wrappedSubtractionSpellingsAgree : Obligations.WrappedSubtractionSpellingsAgree := by
  intro w hw a b
  refine ⟨?_, wrap_intMin_sub_one hw, ?_, ?_⟩
  · rw [wrap_wrap_add, neg_add_eq_sub]
  · rw [zero_sub, wrap_neg_intMin hw]
  · rw [mul_neg_one, wrap_neg_intMin hw]

/-! ### ADD, SUB, MUL -/

/-- The binary shape with its two operands on the stack (R120). -/
theorem binary_cons {s : State} {a b : Int} {below : List Int} (hs : s.stk = a :: b :: below) (f : Int → Int → Int) :
    binary f s = .next ((s.setStk (f a b :: below)).advance 1) :=
  withTopTwo_cons hs _

theorem binary_short {s : State} (h : s.sp < 2) (f : Int → Int → Int) :
    binary f s = .next (s.faultedWith .stackUnderflow) :=
  withTopTwo_short h _

/-- A binary instruction with a commutative function takes its operands in either order (R122, R124). -/
theorem binary_exchange {f : Int → Int → Int} (hf : ∀ a b, f a b = f b a) {s : State} {a b : Int} {below : List Int}
    (hs : s.stk = a :: b :: below) : binary f (s.setStk (b :: a :: below)) = binary f s := by
  rw [binary_cons hs, binary_cons (State.setStk_stk s _), hf]
  rfl

/-- Settles O10: ADD has the binary shape, and a sum does not depend on the order. -/
theorem addPushesTheWrappedSum : Obligations.AddPushesTheWrappedSum :=
  ⟨rfl, fun s => ⟨fun hshort => binary_short hshort _, fun _ _ _ hs =>
    ⟨binary_cons hs _, binary_exchange (fun x y => congrArg (wrap s.cfg.width) (add_comm x y)) hs⟩⟩⟩

/-- Settles O11: SUB has the binary shape. -/
theorem subSubtractsTheFirstPopped : Obligations.SubSubtractsTheFirstPopped :=
  ⟨rfl, fun _ => ⟨fun hshort => binary_short hshort _, fun _ _ _ hs => binary_cons hs _⟩⟩

/-- Settles O12: MUL has the binary shape, and a product does not depend on the order. -/
theorem mulPushesTheWrappedProduct : Obligations.MulPushesTheWrappedProduct :=
  ⟨rfl, fun s => ⟨fun hshort => binary_short hshort _, fun _ _ _ hs =>
    ⟨binary_cons hs _, binary_exchange (fun x y => congrArg (wrap s.cfg.width) (mul_comm x y)) hs⟩⟩⟩

/-! ### DIV -/

/-- The check of the divisor fails: nothing is popped (R125). -/
theorem exec_div_zero {s : State} {b : Int} {below : List Int} (hs : s.stk = 0 :: b :: below) :
    exec .div s = .next (s.faultedWith .divisionByZero) := by
  rw [exec_div, withTopTwo_cons hs, if_pos rfl, raise]

/-- DIV by a non-zero first popped value (R125). -/
theorem exec_div_of_ne_zero {s : State} {a b : Int} {below : List Int} (hs : s.stk = a :: b :: below) (ha : a ≠ 0) :
    exec .div s = .next ((s.setStk (wrap s.cfg.width (Int.tdiv 1 a * b) :: below)).advance 1) := by
  rw [exec_div, withTopTwo_cons hs, if_neg ha]

/-- Settles O13: DIV checks for its two operands, then the first popped. -/
theorem divMultipliesByTheTruncatedReciprocal : Obligations.DivMultipliesByTheTruncatedReciprocal :=
  ⟨rfl, fun _ => ⟨fun hshort => withTopTwo_short hshort _, fun _ _ hs => exec_div_zero hs,
    fun _ _ _ hs ha => exec_div_of_ne_zero hs ha⟩⟩

/-- The reciprocal of any integer beyond 1 and -1 is truncated to 0. -/
theorem one_tdiv_eq_zero {a : Int} (ha : 2 ≤ a ∨ a ≤ -2) : Int.tdiv 1 a = 0 := by
  rcases ha with hpos | hneg
  · exact Int.tdiv_eq_zero_of_lt Int.one_nonneg (by omega)
  · rw [← neg_neg a, Int.tdiv_neg, Int.tdiv_eq_zero_of_lt Int.one_nonneg (by omega), neg_zero]

theorem isCell_zero (w : Nat) : isCell w 0 := by
  have hpos := two_pow_pos (w - 1)
  unfold isCell intMin intMax
  omega

/-- The negation of a cell other than the smallest one is a cell. -/
theorem isCell_neg {w : Nat} {v : Int} (hv : isCell w v) (hmin : v ≠ intMin w) : isCell w (-v) := by
  obtain ⟨hlo, hhi⟩ := hv
  have hend := neg_intMin w
  constructor <;> omega

/-- DIV with a non-zero first popped value pushes the cell that the product wraps to. -/
theorem exec_div_of_wrap_eq {s : State} {a b v : Int} {below : List Int} (hs : s.stk = a :: b :: below) (ha : a ≠ 0)
    (hv : wrap s.cfg.width (Int.tdiv 1 a * b) = v) : exec .div s = .next ((s.setStk (v :: below)).advance 1) :=
  hv ▸ exec_div_of_ne_zero hs ha

/-- Settles O14: the reciprocal is `1`, `-1` or `0`, and the product is a cell but for the negation of the smallest
cell, which wraps to itself. -/
theorem divResultTable : Obligations.DivResultTable := by
  intro s a b below hw hb hs
  have hbeyond (ha : 2 ≤ a ∨ a ≤ -2) : exec .div s = .next ((s.setStk (0 :: below)).advance 1) :=
    exec_div_of_wrap_eq hs (by omega) (by rw [one_tdiv_eq_zero ha, zero_mul, wrap_of_isCell hw (isCell_zero _)])
  refine ⟨?_, ?_, ?_, fun ha => hbeyond (.inl ha), fun ha => hbeyond (.inr ha), ?_⟩
  · rintro rfl
    exact exec_div_of_wrap_eq hs one_ne_zero (by simpa using wrap_of_isCell hw hb)
  · rintro rfl hmin
    exact exec_div_of_wrap_eq hs (by decide) (by simpa using wrap_of_isCell hw (isCell_neg hb hmin))
  · rintro rfl rfl
    exact exec_div_of_wrap_eq hs (by decide) (by simpa using wrap_neg_intMin hw)
  · rintro rfl
    exact exec_div_zero hs

/-! ### The cells below the operands (R120, 20_memory.md R50) -/

/-- Bottom first, a stack begins with the cells at its bottom (10_state.md R21). -/
theorem stkAt_of_stk_eq_append {s : State} {top bottom : List Int} (h : s.stk = top ++ bottom) {k : Nat}
    (hk : k < bottom.length) : s.stkAt k = bottom.reverse[k]? := by
  rw [State.stkAt, h, List.reverse_append, List.getElem?_append_left (by simpa using hk)]

/-- An effect leaves the cells below those that the instruction needs at the bottom of the stack. -/
theorem Effect.exists_stk_eq_append {s t : State} {i : Instr} (h : Effect s t i) :
    ∃ top, t.stk = top ++ s.stk.drop i.mnemonic.stackNeed := by
  cases i with
  | push v =>
    obtain ⟨-, rfl⟩ := h
    exact ⟨[v], rfl⟩
  | pop =>
    obtain ⟨v, below, hs, rfl⟩ := h
    exact ⟨[], by rw [hs]; rfl⟩
  | print =>
    obtain ⟨v, below, hs, rfl⟩ := h
    exact ⟨[v], by rw [hs]; exact hs⟩
  | dup =>
    obtain ⟨v, below, hs, -, rfl⟩ := h
    exact ⟨[v, v], by rw [State.advance_stk, State.setStk_stk, hs]; rfl⟩
  | add | sub | mul | eq | lt | gt =>
    obtain ⟨a, b, below, hs, rfl⟩ := h
    exact ⟨[_], by rw [hs]; rfl⟩
  | div =>
    obtain ⟨a, b, below, hs, -, rfl⟩ := h
    exact ⟨[_], by rw [hs]; rfl⟩
  | swap =>
    obtain ⟨a, b, below, hs, rfl⟩ := h
    exact ⟨[b, a], by rw [hs]; rfl⟩
  | jmp | alloc =>
    obtain ⟨-, -, rfl⟩ := h
    exact ⟨[], rfl⟩
  | jz | jnz =>
    obtain ⟨v, below, hs, ⟨-, rfl⟩ | ⟨-, -, -, rfl⟩⟩ := h
    · exact ⟨[], by rw [hs]; rfl⟩
    · exact ⟨[], by rw [hs]; rfl⟩
  | load =>
    obtain ⟨-, -, -, v, -, -, rfl⟩ := h
    exact ⟨[v], rfl⟩
  | store =>
    obtain ⟨v, below, hs, -, -, -, rfl⟩ := h
    exact ⟨[], by rw [hs]; rfl⟩
  | halt =>
    obtain rfl := h
    exact ⟨[], rfl⟩

/-- Settles O53: a fault leaves the whole stack, and an effect leaves the cells below those needed at its bottom,
where both states read them. -/
theorem cellsBelowTheNeededAreUntouched : Obligations.CellsBelowTheNeededAreUntouched := by
  intro i s t h k hk
  rcases exec_next h with ⟨K, -, rfl⟩ | he
  · rfl
  · obtain ⟨top, ht⟩ := he.exists_stk_eq_append
    have hs : s.stk = s.stk.take i.mnemonic.stackNeed ++ s.stk.drop i.mnemonic.stackNeed :=
      (List.take_append_drop _ _).symm
    have hbottom : k < (s.stk.drop i.mnemonic.stackNeed).length := by
      rw [List.length_drop]
      exact Nat.lt_sub_of_add_lt hk
    rw [stkAt_of_stk_eq_append ht hbottom, stkAt_of_stk_eq_append hs hbottom]

end Sys2Proof.Machine
end

section
/-! The output (43_output.md): PRINT appends the top of the stack, and nothing else writes the output. -/

namespace Sys2Proof.Machine

/-- PRINT with its operand on the stack emits it and keeps it (43_output.md R135). -/
theorem exec_print_cons {s : State} {v : Int} {below : List Int} (hs : s.stk = v :: below) :
    exec .print s = .next ((s.emit v).advance 1) :=
  withTop_cons hs _

/-- Settles O15: `need(1)` faults on the empty stack and else hands on the top. -/
theorem printAppendsTheTop : Obligations.PrintAppendsTheTop :=
  ⟨rfl, fun _ => ⟨fun hempty => withTop_nil hempty _, fun _ _ hs => exec_print_cons hs⟩⟩

/-- The effect of every instruction but PRINT leaves the output (43_output.md R136). -/
theorem Effect.out_of_ne_print {s t : State} {i : Instr} (h : Effect s t i) (hi : i ≠ .print) : t.out = s.out := by
  cases i with
  | print => exact absurd rfl hi
  | push =>
    obtain ⟨-, rfl⟩ := h
    rfl
  | pop =>
    obtain ⟨v, below, -, rfl⟩ := h
    rfl
  | add | sub | mul | swap | eq | lt | gt =>
    obtain ⟨a, b, below, -, rfl⟩ := h
    rfl
  | div =>
    obtain ⟨a, b, below, -, -, rfl⟩ := h
    rfl
  | dup =>
    obtain ⟨v, below, -, -, rfl⟩ := h
    rfl
  | jmp | alloc =>
    obtain ⟨-, -, rfl⟩ := h
    rfl
  | jz | jnz =>
    obtain ⟨v, below, -, ⟨-, rfl⟩ | ⟨-, -, -, rfl⟩⟩ := h
    · rfl
    · rfl
  | load =>
    obtain ⟨-, -, -, v, -, -, rfl⟩ := h
    rfl
  | store =>
    obtain ⟨v, below, -, -, -, -, rfl⟩ := h
    rfl
  | halt =>
    obtain rfl := h
    rfl

/-- Under an injective `OPC` PRINT is fetched where its number stands (30_encoding.md R73). -/
theorem State.AtOpcode.fetch_print {s : State} (ho : s.cfg.opc.Injective) (h : s.AtOpcode .print) :
    fetch s = .instr .print (s.prog.drop (s.ip + 1)) :=
  fetch_of_opcode (drop_eq_cons_of_getElem? h.2) (OpcodeMap.mnemonicOf_number ho .print)

/-- A PRINT that does not fault appends the top of the stack to the output. -/
theorem out_of_exec_print {s t : State} (h : exec .print s = .next t) (ht : t.status ≠ .faulted) :
    ∃ v, s.stk.head? = some v ∧ t.out = s.out ++ [v] := by
  obtain ⟨v, below, hs, rfl⟩ := effect_of_exec h ht
  exact ⟨v, by rw [hs]; rfl, rfl⟩

/-- A step leaves the output, unless it fetched PRINT and did not fault. -/
theorem step_out_cases {s t : State} (h : step s = .next t) :
    t.out = s.out ∨ ((∃ rest, fetch s = .instr .print rest) ∧ t.status ≠ .faulted) := by
  obtain ⟨hr, ⟨-, rfl⟩ | ⟨-, rfl | rfl, -⟩ | ⟨i, rest, hf, he⟩⟩ := step_next h
  · exact .inl rfl
  · exact .inl rfl
  · exact .inl rfl
  · rcases exec_next he with ⟨K, -, rfl⟩ | heff
    · exact .inl rfl
    · by_cases hi : i = .print
      · exact .inr ⟨⟨rest, hi ▸ hf⟩, heff.not_faulted hr⟩
      · exact .inl (heff.out_of_ne_print hi)

/-- Settles O49: where the number of PRINT stands the step executes it, and a step that changed the output has
fetched PRINT, so its number stands there. -/
theorem outputGrowsOnlyByPrint : Obligations.OutputGrowsOnlyByPrint := by
  rintro s t ⟨-, -, -, hinj⟩ h
  constructor
  · rintro ⟨hat, ht⟩
    have he : exec .print s = .next t := (step_of_instr hat.1 (hat.fetch_print hinj)).symm.trans h
    exact out_of_exec_print he ht
  · intro hno
    rcases step_out_cases h with hout | ⟨⟨rest, hf⟩, ht⟩
    · exact hout
    · have hat : s.AtOpcode .print := ⟨running_of_step h, opcode_of_fetch hf⟩
      exact (hno.elim (absurd hat) ht).elim

end Sys2Proof.Machine
end

section
/-! The control transfers JMP, JZ, JNZ (44_control.md R140 to R143): the target check, and the conditional jump that
JZ and JNZ share, each by its cases. -/

namespace Sys2Proof.Machine

/-- `check_target(t)` passes: the jump is made (R143). -/
theorem jumpTo_valid {s : State} {t : Int} (h : s.ValidTarget t) (s' : State) :
    jumpTo t s s' = .next (s'.setIp t.toNat) := by
  obtain ⟨hlo, hhi⟩ := h
  rw [jumpTo, if_neg (by omega)]

/-- `check_target(t)` fails: nothing is popped, whatever state the jump was to lead to (R143). -/
theorem jumpTo_not_valid {s : State} {t : Int} (h : ¬ s.ValidTarget t) (s' : State) :
    jumpTo t s s' = .next (s.faultedWith .programBoundsError) := by
  have hout : t < 0 ∨ t ≥ s.plen := by
    simp only [State.ValidTarget] at h
    omega
  rw [jumpTo, if_pos hout, raise]

/-- Settles O17: the operand stage faults in the fetch, and the jump depends on the target check alone. -/
theorem jmpSetsIpToItsTarget : Obligations.JmpSetsIpToItsTarget :=
  ⟨fun _ => rfl, fun _ hmissing => step_of_operandMissing rfl hmissing,
    fun s _ => ⟨fun hvalid => jumpTo_valid hvalid s, fun hinvalid => jumpTo_not_valid hinvalid s⟩⟩

section CondJump

variable {s : State} {taken : Int → Bool} {v : Int} {below : List Int}

theorem condJump_nil (hs : s.stk = []) (taken : Int → Bool) (t : Int) :
    condJump taken t s = .next (s.faultedWith .stackUnderflow) :=
  withTop_nil hs _

/-- A jump that is not taken pops its cell and does not look at the target. -/
theorem condJump_not_taken (hs : s.stk = v :: below) (hv : taken v = false) (t : Int) :
    condJump taken t s = .next ((s.setStk below).advance 2) := by
  rw [condJump, withTop_cons hs, hv, if_neg Bool.false_ne_true]

/-- A jump that is taken hands the state with its cell popped on to the target check. -/
theorem condJump_taken (hs : s.stk = v :: below) (hv : taken v = true) (t : Int) :
    condJump taken t s = jumpTo t s (s.setStk below) := by
  rw [condJump, withTop_cons hs, if_pos hv]

theorem condJump_taken_valid (hs : s.stk = v :: below) (hv : taken v = true) {t : Int} (ht : s.ValidTarget t) :
    condJump taken t s = .next ((s.setStk below).setIp t.toNat) :=
  (condJump_taken hs hv t).trans (jumpTo_valid ht _)

theorem condJump_taken_not_valid (hs : s.stk = v :: below) (hv : taken v = true) {t : Int} (ht : ¬ s.ValidTarget t) :
    condJump taken t s = .next (s.faultedWith .programBoundsError) :=
  (condJump_taken hs hv t).trans (jumpTo_not_valid ht _)

end CondJump

/-- Settles O18: JZ is the conditional jump taken on 0. -/
theorem jzPopsAndJumpsOnZero : Obligations.JzPopsAndJumpsOnZero :=
  ⟨fun _ => rfl, fun _ hmissing => step_of_operandMissing rfl hmissing,
    fun _ t => ⟨fun hempty => condJump_nil hempty _ t, fun _ _ hs =>
      ⟨fun hne => condJump_not_taken hs (decide_eq_false hne) t,
        fun hzero hvalid => condJump_taken_valid hs (decide_eq_true hzero) hvalid,
        fun hzero hinvalid => condJump_taken_not_valid hs (decide_eq_true hzero) hinvalid⟩⟩⟩

/-- Settles O19: JNZ is the conditional jump taken on every cell but 0. -/
theorem jnzPopsAndJumpsOnNonzero : Obligations.JnzPopsAndJumpsOnNonzero :=
  ⟨fun _ => rfl, fun _ hmissing => step_of_operandMissing rfl hmissing,
    fun _ t => ⟨fun hempty => condJump_nil hempty _ t, fun _ _ hs =>
      ⟨fun hzero => condJump_not_taken hs (decide_eq_false (not_not_intro hzero)) t,
        fun hne hvalid => condJump_taken_valid hs (decide_eq_true hne) hvalid,
        fun hne hinvalid => condJump_taken_not_valid hs (decide_eq_true hne) hinvalid⟩⟩⟩

end Sys2Proof.Machine
end

section
/-! The comparisons EQ, LT, GT (45_compare.md R150 to R152): the binary shape with a condition's cell as its result,
and the trichotomy that makes exactly one of the three push 1. -/

namespace Sys2Proof.Machine

theorem condCell_decide (p : Prop) [Decidable p] : condCell (decide p) = if p then 1 else 0 :=
  ite_cond_congr (decide_eq_true_eq ..)

section Compare

variable {s : State} {a b : Int} {below : List Int}

/-- A comparison by the relation `r` with its two operands on the stack, the first popped on the left. -/
theorem binary_decide_cons (hs : s.stk = a :: b :: below) (r : Int → Int → Prop) [DecidableRel r] :
    binary (fun x y => condCell (decide (r x y))) s =
      .next ((s.setStk ((if r a b then 1 else 0) :: below)).advance 1) := by
  rw [binary_cons hs, condCell_decide]

theorem exec_eq_cons (hs : s.stk = a :: b :: below) :
    exec .eq s = .next ((s.setStk ((if a = b then 1 else 0) :: below)).advance 1) :=
  binary_decide_cons hs (· = ·)

theorem exec_lt_cons (hs : s.stk = a :: b :: below) :
    exec .lt s = .next ((s.setStk ((if a > b then 1 else 0) :: below)).advance 1) :=
  binary_decide_cons hs (· > ·)

theorem exec_gt_cons (hs : s.stk = a :: b :: below) :
    exec .gt s = .next ((s.setStk ((if a < b then 1 else 0) :: below)).advance 1) :=
  binary_decide_cons hs (· < ·)

end Compare

/-- Exactly one of `a = b`, `a > b`, `a < b` contributes its 1. -/
theorem comparison_cells_sum_eq_one (a b : Int) :
    (if a = b then 1 else 0) + (if a > b then 1 else 0) + (if a < b then 1 else 0) = (1 : Int) := by
  rcases lt_trichotomy a b with hlt | heq | hgt
  · rw [if_neg hlt.ne, if_neg hlt.not_gt, if_pos hlt, zero_add, zero_add]
  · rw [if_pos heq, if_neg heq.not_gt, if_neg heq.not_lt, add_zero, add_zero]
  · rw [if_neg hgt.ne', if_pos hgt, if_neg hgt.not_gt, zero_add, add_zero]

/-- Settles O20: EQ is the comparison by equality. -/
theorem eqPushesOneIffEqual : Obligations.EqPushesOneIffEqual :=
  ⟨rfl, fun _ => ⟨fun hshort => binary_short hshort _, fun _ _ _ hs => exec_eq_cons hs⟩⟩

/-- Settles O21: LT is the comparison by `a > b`, the first popped on the left. -/
theorem ltPushesOneIffFirstPoppedIsGreater : Obligations.LtPushesOneIffFirstPoppedIsGreater :=
  ⟨rfl, fun _ => ⟨fun hshort => binary_short hshort _, fun _ _ _ hs => exec_lt_cons hs⟩⟩

/-- Settles O22: GT is the comparison by `a < b`, and by trichotomy the three results sum to 1. -/
theorem gtPushesOneIffFirstPoppedIsLess : Obligations.GtPushesOneIffFirstPoppedIsLess :=
  ⟨rfl, fun _ => ⟨fun hshort => binary_short hshort _, fun a b _ hs =>
    ⟨exec_gt_cons hs, _, _, _, exec_eq_cons hs, exec_lt_cons hs, exec_gt_cons hs, comparison_cells_sum_eq_one a b⟩⟩⟩

end Sys2Proof.Machine
end

section
/-! Variable memory under its two allocation policies (46_varmem.md R155 to R159): the instructions ALLOC, LOAD and
STORE by their checks, and the relation of the two policies kept by every shared operation, so by every step. -/

namespace Sys2Proof.Machine

/-! ### The two policies in lock step (R158) -/

/-- Where `r` answers a next state that is not the UnallocatedSlot fault, `r'` answers a related one. -/
def PolicySimulates (r r' : Result) : Prop :=
  ∀ t, r = .next t → t.ferr ≠ some .unallocatedSlot → ∃ u, r' = .next u ∧ PolicyRelated t u

theorem policySimulates_next {t u : State} (h : PolicyRelated t u) : PolicySimulates (.next t) (.next u) := by
  rintro _ ⟨⟩ -
  exact ⟨u, rfl, h⟩

section Related

variable {s z : State} (h : PolicyRelated s z)
include h

/-! The operations over the state keep the relation. -/

theorem PolicyRelated.setStk (cells : List Int) : PolicyRelated (s.setStk cells) (z.setStk cells) :=
  { h with stk := rfl }

theorem PolicyRelated.setIp (n : Nat) : PolicyRelated (s.setIp n) (z.setIp n) :=
  { h with ip := rfl }

theorem PolicyRelated.advance (n : Nat) : PolicyRelated (s.advance n) (z.advance n) :=
  { h with ip := congrArg (· + n) h.ip }

theorem PolicyRelated.emit (v : Int) : PolicyRelated (s.emit v) (z.emit v) :=
  { h with out := congrArg (· ++ [v]) h.out }

theorem PolicyRelated.halt : PolicyRelated s.halt z.halt :=
  { h with status := rfl }

theorem PolicyRelated.faultedWith (K : FaultKind) : PolicyRelated (s.faultedWith K) (z.faultedWith K) :=
  { h with status := rfl, ferr := rfl }

theorem PolicyRelated.writeSlot (i : Nat) (v : Int) : PolicyRelated (s.writeSlot i v) (z.writeSlot i v) :=
  { h with
    mem := fun j hj => by rw [readSlot_writeSlot, readSlot_writeSlot, h.mem j hj] }

/-- The slot that ALLOC flags has just been written, and so holds the same value under both policies. -/
theorem PolicyRelated.writeSlot_setAlloc (i : Nat) (v : Int) :
    PolicyRelated ((s.writeSlot i v).setAlloc i) ((z.writeSlot i v).setAlloc i) :=
  { h with
    alloc := congrArg (insertSlot i) h.alloc
    mem := fun j hj => by
      rw [readSlot_setAlloc, readSlot_setAlloc]
      rcases mem_insertSlot.mp hj with rfl | hj
      · rw [readSlot_writeSlot_self, readSlot_writeSlot_self]
      · exact (h.writeSlot i v).mem j hj }

/-! What the checks look at is the same. -/

theorem PolicyRelated.sp : z.sp = s.sp := congrArg List.length h.stk

theorem PolicyRelated.plen : z.plen = s.plen := congrArg List.length h.prog

theorem PolicyRelated.width : z.cfg.width = s.cfg.width := by rw [h.cfg]

theorem PolicyRelated.stackCap : z.cfg.stackCap = s.cfg.stackCap := by rw [h.cfg]

theorem PolicyRelated.memSize : z.cfg.memSize = s.cfg.memSize := by rw [h.cfg]

theorem PolicyRelated.zero : z.cfg.unallocPolicy = .zero := by rw [h.cfg]

/-- Decoding does not look at the policy. -/
theorem PolicyRelated.fetch : Machine.fetch z = Machine.fetch s := by
  rw [Machine.fetch, Machine.fetch, h.cfg, h.prog, h.ip]
  cases s.prog.drop s.ip <;> rfl

/-! The shared operations answer in lock step. -/

theorem PolicyRelated.raise (K : FaultKind) : PolicySimulates (Machine.raise K s) (Machine.raise K z) :=
  policySimulates_next (h.faultedWith K)

theorem PolicyRelated.pushAndAdvance (v : Int) (n : Nat) :
    PolicySimulates (Machine.pushAndAdvance v n s) (Machine.pushAndAdvance v n z) := by
  rw [Machine.pushAndAdvance, Machine.pushAndAdvance, h.sp, h.stackCap, h.stk]
  split
  · exact h.raise _
  · exact policySimulates_next ((h.setStk _).advance n)

theorem PolicyRelated.jumpTo (n : Int) {s' z' : State} (h' : PolicyRelated s' z') :
    PolicySimulates (Machine.jumpTo n s s') (Machine.jumpTo n z z') := by
  rw [Machine.jumpTo, Machine.jumpTo, h.plen]
  split
  · exact h.raise _
  · exact policySimulates_next (h'.setIp _)

theorem PolicyRelated.withTop {k k' : Int → List Int → Result}
    (hk : ∀ v below, PolicySimulates (k v below) (k' v below)) :
    PolicySimulates (Machine.withTop s k) (Machine.withTop z k') := by
  rw [Machine.withTop, Machine.withTop, h.stk]
  split
  · exact hk _ _
  · exact h.raise _

theorem PolicyRelated.withTopTwo {k k' : Int → Int → List Int → Result}
    (hk : ∀ a b below, PolicySimulates (k a b below) (k' a b below)) :
    PolicySimulates (Machine.withTopTwo s k) (Machine.withTopTwo z k') := by
  rw [Machine.withTopTwo, Machine.withTopTwo, h.stk]
  split
  · exact hk _ _ _
  · exact h.raise _

theorem PolicyRelated.withSlot (i : Int) {k k' : Nat → Result} (hk : ∀ n, PolicySimulates (k n) (k' n)) :
    PolicySimulates (Machine.withSlot i s k) (Machine.withSlot i z k') := by
  rw [Machine.withSlot, Machine.withSlot, h.memSize]
  split
  · exact h.raise _
  · exact hk _

/-- The one check that tells the policies apart: `zero` always passes, and where `fault` does not pass the answer is
the UnallocatedSlot fault. -/
theorem PolicyRelated.ifAllocated {n : Nat} {r r' : Result} (hr : n ∈ s.alloc → PolicySimulates r r') :
    PolicySimulates (Machine.ifAllocated n s r) (Machine.ifAllocated n z r') := by
  rw [ifAllocated_usable (.inl h.zero)]
  cases hf : s.allocFlag n with
  | true =>
    rw [ifAllocated_usable (.inr hf)]
    exact hr (allocFlag_iff.mp hf)
  | false =>
    rw [ifAllocated_clear h.policy hf]
    intro t ht hferr
    obtain rfl := raise_next ht
    exact absurd rfl hferr

theorem PolicyRelated.binary (f : Int → Int → Int) :
    PolicySimulates (Machine.binary f s) (Machine.binary f z) :=
  h.withTopTwo fun _ _ _ => policySimulates_next ((h.setStk _).advance 1)

theorem PolicyRelated.condJump (taken : Int → Bool) (n : Int) :
    PolicySimulates (Machine.condJump taken n s) (Machine.condJump taken n z) := by
  refine h.withTop fun v below => ?_
  split
  · exact h.jumpTo n (h.setStk below)
  · exact policySimulates_next ((h.setStk below).advance 2)

/-- Every instruction answers in lock step. LOAD reads an allocated slot, where the two memories agree. -/
theorem PolicyRelated.exec (i : Instr) : PolicySimulates (Machine.exec i s) (Machine.exec i z) := by
  cases i with
  | push v => exact h.pushAndAdvance v 2
  | pop => exact h.withTop fun _ below => policySimulates_next ((h.setStk below).advance 1)
  | add | sub | mul =>
    simp only [exec_add, exec_sub, exec_mul, h.width]
    exact h.binary _
  | div =>
    simp only [exec_div, h.width]
    refine h.withTopTwo fun a b below => ?_
    split
    · exact h.raise _
    · exact policySimulates_next ((h.setStk _).advance 1)
  | dup => exact h.withTop fun v _ => h.pushAndAdvance v 1
  | swap => exact h.withTopTwo fun _ _ _ => policySimulates_next ((h.setStk _).advance 1)
  | print => exact h.withTop fun v _ => policySimulates_next ((h.emit v).advance 1)
  | jmp n => exact h.jumpTo n h
  | jz n | jnz n => exact h.condJump _ n
  | eq | lt | gt => exact h.binary _
  | alloc n =>
    rw [exec_alloc, exec_alloc]
    exact h.withSlot n fun m => policySimulates_next ((h.writeSlot_setAlloc m 0).advance 2)
  | load n =>
    rw [exec_load, exec_load]
    refine h.withSlot n fun m => h.ifAllocated fun hm => ?_
    rw [h.mem m hm]
    split
    · exact h.pushAndAdvance _ 2
    · rintro _ ⟨⟩
  | store n =>
    exact h.withTop fun v below => h.withSlot n fun m => h.ifAllocated fun _ =>
      policySimulates_next (((h.writeSlot m v).setStk below).advance 2)
  | halt => exact policySimulates_next h.halt

theorem PolicyRelated.fetchFailed (e : DecodeError) :
    PolicySimulates (Machine.fetchFailed e s) (Machine.fetchFailed e z) := by
  cases e with
  | noCell => exact policySimulates_next h.halt
  | unknownOpcode => exact h.raise _
  | missingOperand => exact h.raise _

theorem PolicyRelated.runningStep : PolicySimulates (Machine.runningStep s) (Machine.runningStep z) := by
  rw [Machine.runningStep, Machine.runningStep, h.fetch]
  split
  · exact h.exec _
  · exact h.fetchFailed _

end Related

/-- Settles O55: both builds are Running, fetch the same instruction and execute it in lock step. -/
theorem policiesAgreeUntilAnUnallocatedUse : Obligations.PoliciesAgreeUntilAnUnallocatedUse := by
  intro s z t h hst hferr
  have hs : s.status = .running := running_of_step hst
  rw [step_running hs] at hst
  rw [step_running (h.status.trans hs)]
  exact h.runningStep t hst hferr

/-! ### Slots and flags after a write to the same and to another slot -/

theorem readSlot_writeSlot_of_ne {i j : Nat} (hij : j ≠ i) (s : State) (v : Int) :
    (s.writeSlot i v).readSlot j = s.readSlot j := by
  rw [readSlot_writeSlot, if_neg hij.symm]

@[simp] theorem allocFlag_setAlloc_self (s : State) (i : Nat) : (s.setAlloc i).allocFlag i = true := by
  simp [allocFlag_setAlloc]

theorem allocFlag_setAlloc_of_ne {i j : Nat} (hij : j ≠ i) (s : State) :
    (s.setAlloc i).allocFlag j = s.allocFlag j := by
  simp [allocFlag_setAlloc, hij]

/-! ### ALLOC, LOAD and STORE -/

/-- ALLOC of a slot of the declared size (46_varmem.md R155). -/
theorem exec_alloc_valid {s : State} {i : Int} (hi : s.ValidSlot i) :
    exec (.alloc i) s = .next (((s.writeSlot i.toNat 0).setAlloc i.toNat).advance 2) := by
  rw [exec_alloc, withSlot_valid hi.1 hi.2]

/-- Settles O23: ALLOC's one check is the index's; the next state is the write of 0 and the flag set. -/
theorem allocZeroesAndFlagsItsSlot : Obligations.AllocZeroesAndFlagsItsSlot := by
  refine ⟨fun _ => rfl, fun _ hmissing => step_of_operandMissing rfl hmissing, fun s i =>
    ⟨fun hinvalid => (exec_alloc i s).trans (withSlot_not_valid hinvalid _),
      fun hvalid => ⟨_, exec_alloc_valid hvalid, ?_⟩⟩⟩
  have hother : ∀ j, j ≠ i.toNat →
      (s.writeSlot i.toNat 0).readSlot j = s.readSlot j ∧
        ((s.writeSlot i.toNat 0).setAlloc i.toNat).allocFlag j = s.allocFlag j :=
    fun j hj => ⟨readSlot_writeSlot_of_ne hj s 0, allocFlag_setAlloc_of_ne hj _⟩
  exact ⟨readSlot_writeSlot_self s _ 0, allocFlag_setAlloc_self _ _, rfl, hother, rfl, rfl, rfl, rfl, rfl, rfl⟩

/-- Settles O24: the index's check, then the flag's, then `room(1)`. -/
theorem loadPushesItsSlot : Obligations.LoadPushesItsSlot := by
  refine ⟨fun _ => rfl, fun _ hmissing => step_of_operandMissing rfl hmissing, fun s i =>
    ⟨fun hinvalid => ?_, fun hvalid hunusable => ?_, fun v hvalid husable hv =>
      ⟨fun hfull => ?_, fun hroom => exec_load_usable hvalid husable hv hroom⟩⟩⟩
  · rw [exec_load, withSlot_not_valid hinvalid]
    rfl
  · rw [exec_load, withSlot_valid hvalid.1 hvalid.2, ifAllocated_not_usable hunusable]
    rfl
  · rw [exec_load, withSlot_valid hvalid.1 hvalid.2, ifAllocated_usable husable, hv]
    exact pushAndAdvance_full hfull v 2

/-- Settles O25: `need(1)`, then the index's check, then the flag's; the next state is the write and the pop. -/
theorem storeWritesItsSlot : Obligations.StoreWritesItsSlot := by
  refine ⟨fun _ => rfl, fun _ hmissing => step_of_operandMissing rfl hmissing, fun s i =>
    ⟨fun hempty => withTop_nil hempty _, fun v below hs => ⟨fun hinvalid => ?_, fun hvalid hunusable => ?_,
      fun hvalid husable => ⟨_, exec_store_usable hs hvalid husable, ?_⟩⟩⟩⟩
  · rw [exec_store, withTop_cons hs, withSlot_not_valid hinvalid]
    rfl
  · rw [exec_store, withTop_cons hs, withSlot_valid hvalid.1 hvalid.2, ifAllocated_not_usable hunusable]
    rfl
  · have hother : ∀ j, j ≠ i.toNat → (s.writeSlot i.toNat v).readSlot j = s.readSlot j :=
      fun j hj => readSlot_writeSlot_of_ne hj s v
    exact ⟨readSlot_writeSlot_self s _ v, rfl, rfl, hother, fun _ => rfl, rfl, rfl, rfl, rfl, rfl⟩

/-- Settles O26: ALLOC leaves the slot flagged and holding 0, so that the LOAD passes its checks in both policies. -/
theorem loadAfterAllocPushesZero : Obligations.LoadAfterAllocPushesZero := by
  intro s i hvalid hroom
  have hread : (((s.writeSlot i.toNat 0).setAlloc i.toNat).advance 2).readSlot i.toNat = some 0 := by simp
  exact ⟨_, _, exec_alloc_valid hvalid, exec_load_usable hvalid (.inr (allocFlag_setAlloc_self _ _)) hread hroom, rfl⟩

end Sys2Proof.Machine
end

section
/-! HALT (47_halt.md R165), the condition of every fault of every instruction (60_exceptions.md R171 to R178), and
reset (70_reset_and_hazards.md R200). -/

namespace Sys2Proof.Machine

/-- Settles O28: HALT's number is by definition, and its next state is `State.halt`. -/
theorem haltStopsTheRunInPlace : Obligations.HaltStopsTheRunInPlace :=
  ⟨rfl, exec_halt⟩

/-- Settles O3: reset takes nothing but the configuration from the state. -/
theorem hostResetForgetsTheRun : Obligations.HostResetForgetsTheRun :=
  fun p _ _ hcfg => ⟨congrArg (State.initial · p) hcfg, rfl, rfl⟩

/-- Settles O40: an instruction that ends Faulted has raised one of its own faults. -/
theorem instructionsRaiseOnlyTheirListedFaults : Obligations.InstructionsRaiseOnlyTheirListedFaults :=
  fun _ _ _ => exec_faulted

/-! ### When a check of `s` answers a fault of kind `K` -/

section Checks

variable {s : State} {K : FaultKind}

theorem ne_faultedWith {t : State} (ht : t.status ≠ .faulted) : t ≠ s.faultedWith K := by
  rintro rfl
  exact ht rfl

theorem raise_eq_faulted_iff {K' : FaultKind} : raise K' s = .next (s.faultedWith K) ↔ K = K' := by
  rw [raise, Host.Outcome.next.injEq, State.faultedWith_inj, eq_comm]

/-- `need(1)`, then what faults under a condition `P` on the top. -/
theorem withTop_eq_faulted_iff {k : Int → List Int → Result} {P : Int → Prop}
    (hk : ∀ v below, k v below = .next (s.faultedWith K) ↔ P v) :
    withTop s k = .next (s.faultedWith K) ↔
      (s.sp < 1 ∧ K = .stackUnderflow) ∨ ∃ v, s.stk.head? = some v ∧ P v := by
  cases hs : s.stk with
  | nil => simp [withTop_nil hs, raise_eq_faulted_iff, State.sp, hs]
  | cons v below => simp [withTop_cons hs, hk, State.sp, hs]

/-- `need(2)`, then what faults under a condition `P` on the first popped. -/
theorem withTopTwo_eq_faulted_iff {k : Int → Int → List Int → Result} {P : Int → Prop}
    (hk : ∀ a b below, k a b below = .next (s.faultedWith K) ↔ P a) :
    withTopTwo s k = .next (s.faultedWith K) ↔
      (s.sp < 2 ∧ K = .stackUnderflow) ∨ ∃ a b below, s.stk = a :: b :: below ∧ P a := by
  match hs : s.stk with
  | [] | [_] =>
    have hshort : s.sp < 2 := by simp [State.sp, hs]
    simp [withTopTwo_short hshort, raise_eq_faulted_iff, hshort]
  | a :: b :: below => simp [withTopTwo_cons hs, hk, State.sp, hs]

/-- `need(1)` of an instruction without another check. -/
theorem withTop_eq_faulted_iff_of_ne {k : Int → List Int → Result}
    (hk : ∀ v below, k v below ≠ .next (s.faultedWith K)) :
    withTop s k = .next (s.faultedWith K) ↔ s.sp < 1 ∧ K = .stackUnderflow := by
  simp [withTop_eq_faulted_iff fun v below => iff_false_intro (hk v below)]

/-- `need(2)` of an instruction without another check. -/
theorem withTopTwo_eq_faulted_iff_of_ne {k : Int → Int → List Int → Result}
    (hk : ∀ a b below, k a b below ≠ .next (s.faultedWith K)) :
    withTopTwo s k = .next (s.faultedWith K) ↔ s.sp < 2 ∧ K = .stackUnderflow := by
  simp [withTopTwo_eq_faulted_iff fun a b below => iff_false_intro (hk a b below)]

/-- `check_index(i)`, then the rest. -/
theorem withSlot_eq_faulted_iff {i : Int} {k : Nat → Result} :
    withSlot i s k = .next (s.faultedWith K) ↔
      ((i < 0 ∨ (s.cfg.memSize : Int) ≤ i) ∧ K = .memoryIndexOutOfRange) ∨
        (s.ValidSlot i ∧ k i.toNat = .next (s.faultedWith K)) := by
  by_cases hi : s.ValidSlot i
  · simp [withSlot_valid hi.1 hi.2, hi.1.not_gt, hi.2.not_ge, State.ValidSlot, hi.1, hi.2]
  · have hout : i < 0 ∨ (s.cfg.memSize : Int) ≤ i := by simpa only [not_and_or, not_le, not_lt] using hi
    simp [withSlot_invalid hout, raise_eq_faulted_iff, hout, hi]

/-- `check_alloc(i)`, then the rest. -/
theorem ifAllocated_eq_faulted_iff {n : Nat} {r : Result} :
    ifAllocated n s r = .next (s.faultedWith K) ↔
      (s.cfg.unallocPolicy = .fault ∧ s.allocFlag n = false ∧ K = .unallocatedSlot) ∨
        (s.Usable n ∧ r = .next (s.faultedWith K)) := by
  rcases usable_or_clear s n with hu | ⟨hp, hf⟩
  · have hno : ¬ (s.cfg.unallocPolicy = .fault ∧ s.allocFlag n = false) := by
      rintro ⟨hp, hf⟩
      simp [State.Usable, hp, hf] at hu
    simp only [ifAllocated_usable hu, hu, ← and_assoc, hno, true_and, false_and, false_or]
  · simp [ifAllocated_clear hp hf, raise_eq_faulted_iff, hp, hf]

/-- `room(1)`. -/
theorem pushAndAdvance_eq_faulted_iff (hr : s.status = .running) {v : Int} {n : Nat} :
    pushAndAdvance v n s = .next (s.faultedWith K) ↔ s.cfg.stackCap ≤ s.sp ∧ K = .stackOverflow := by
  rcases Nat.lt_or_ge s.sp s.cfg.stackCap with hroom | hfull
  · simp [pushAndAdvance_room hroom, ne_faultedWith, hr, hroom]
  · simp [pushAndAdvance_full hfull, hfull, eq_comm]

/-- `check_target(t)`. -/
theorem jumpTo_eq_faulted_iff {n : Int} {s' : State} (hr : s'.status = .running) :
    jumpTo n s s' = .next (s.faultedWith K) ↔ (n < 0 ∨ (s.plen : Int) ≤ n) ∧ K = .programBoundsError := by
  by_cases hn : s.ValidTarget n
  · simp [jumpTo_valid hn, ne_faultedWith, hr, hn.1.not_gt, hn.2.not_ge]
  · have hout : n < 0 ∨ (s.plen : Int) ≤ n := by simpa only [not_and_or, not_le, not_lt] using hn
    simp [jumpTo_not_valid hn, hout, eq_comm]

/-- A conditional jump: `need(1)`, and `check_target(t)` if the jump is taken. -/
theorem condJump_eq_faulted_iff (hr : s.status = .running) {taken : Int → Bool} {n : Int} :
    condJump taken n s = .next (s.faultedWith K) ↔
      (s.sp < 1 ∧ K = .stackUnderflow) ∨
        ((∃ v, taken v = true ∧ s.stk.head? = some v) ∧ (n < 0 ∨ (s.plen : Int) ≤ n) ∧ K = .programBoundsError) := by
  cases hs : s.stk with
  | nil => simp [condJump_nil hs, State.sp, hs, @eq_comm _ K]
  | cons v below =>
    cases hv : taken v with
    | false => simp [condJump_not_taken hs hv, ne_faultedWith, hr, State.sp, hs, hv]
    | true => simp [condJump_taken hs hv, jumpTo_eq_faulted_iff (s' := s.setStk below) hr, State.sp, hs, hv]

end Checks

/-! ### The faults of each instruction -/

/-- The faults of an instruction in `s`, each with the condition under which it is the one raised (60_exceptions.md
R171 to R177, 40_execution_loop.md R96); the counterpart of `Effect`. -/
def Faults (s : State) (K : FaultKind) : Instr → Prop
  | .push _ => s.cfg.stackCap ≤ s.sp ∧ K = .stackOverflow
  | .pop | .print => s.sp < 1 ∧ K = .stackUnderflow
  | .dup => (s.sp < 1 ∧ K = .stackUnderflow) ∨ (1 ≤ s.sp ∧ s.cfg.stackCap ≤ s.sp ∧ K = .stackOverflow)
  | .add | .sub | .mul | .swap | .eq | .lt | .gt => s.sp < 2 ∧ K = .stackUnderflow
  | .div => (s.sp < 2 ∧ K = .stackUnderflow) ∨ ((∃ b below, s.stk = 0 :: b :: below) ∧ K = .divisionByZero)
  | .jmp n => (n < 0 ∨ (s.plen : Int) ≤ n) ∧ K = .programBoundsError
  | .jz n => (s.sp < 1 ∧ K = .stackUnderflow) ∨
      (s.stk.head? = some 0 ∧ (n < 0 ∨ (s.plen : Int) ≤ n) ∧ K = .programBoundsError)
  | .jnz n => (s.sp < 1 ∧ K = .stackUnderflow) ∨
      ((∃ v ≠ 0, s.stk.head? = some v) ∧ (n < 0 ∨ (s.plen : Int) ≤ n) ∧ K = .programBoundsError)
  | .alloc n => (n < 0 ∨ (s.cfg.memSize : Int) ≤ n) ∧ K = .memoryIndexOutOfRange
  | .load n => ((n < 0 ∨ (s.cfg.memSize : Int) ≤ n) ∧ K = .memoryIndexOutOfRange) ∨
      (s.ValidSlot n ∧
        ((s.cfg.unallocPolicy = .fault ∧ s.allocFlag n.toNat = false ∧ K = .unallocatedSlot) ∨
          (s.Usable n.toNat ∧ (∃ v, s.readSlot n.toNat = some v) ∧ s.cfg.stackCap ≤ s.sp ∧ K = .stackOverflow)))
  | .store n => (s.sp < 1 ∧ K = .stackUnderflow) ∨
      (1 ≤ s.sp ∧ (((n < 0 ∨ (s.cfg.memSize : Int) ≤ n) ∧ K = .memoryIndexOutOfRange) ∨
        (s.ValidSlot n ∧ s.cfg.unallocPolicy = .fault ∧ s.allocFlag n.toNat = false ∧ K = .unallocatedSlot)))
  | .halt => False

theorem exists_head?_and_iff {s : State} {P : Prop} : (∃ v, s.stk.head? = some v ∧ P) ↔ 1 ≤ s.sp ∧ P := by
  cases hs : s.stk with
  | nil => simp [State.sp, hs]
  | cons v below => simp [State.sp, hs]

/-- An instruction raises exactly the faults whose conditions hold. -/
theorem exec_eq_faulted_iff {i : Instr} {s : State} {K : FaultKind} (hr : s.status = .running) :
    exec i s = .next (s.faultedWith K) ↔ Faults s K i := by
  cases i with
  | push => exact pushAndAdvance_eq_faulted_iff hr
  | pop | print => exact withTop_eq_faulted_iff_of_ne fun _ _ => by simp [ne_faultedWith, hr]
  | dup =>
    exact (withTop_eq_faulted_iff fun _ _ => pushAndAdvance_eq_faulted_iff hr).trans
      (or_congr_right exists_head?_and_iff)
  | swap | add | sub | mul | eq | lt | gt =>
    exact withTopTwo_eq_faulted_iff_of_ne fun _ _ _ => by simp [ne_faultedWith, hr]
  | div =>
    refine (withTopTwo_eq_faulted_iff (P := fun a => a = 0 ∧ K = .divisionByZero) fun a b below => ?_).trans
      (by simp [Faults])
    by_cases ha : a = 0
    · simp [ha, raise_eq_faulted_iff]
    · simp [ha, ne_faultedWith, hr]
  | jmp => exact jumpTo_eq_faulted_iff hr
  | jz | jnz => exact (condJump_eq_faulted_iff hr).trans (by simp [Faults, takenJz, takenJnz])
  | alloc => simp [exec_alloc, withSlot_eq_faulted_iff, ne_faultedWith, hr, Faults]
  | load n =>
    rw [exec_load, withSlot_eq_faulted_iff, ifAllocated_eq_faulted_iff]
    cases hv : s.readSlot n.toNat with
    | none => simp [Faults, hv]
    | some v => simp [Faults, hv, pushAndAdvance_eq_faulted_iff hr]
  | store n =>
    refine (withTop_eq_faulted_iff fun v below => ?_).trans (or_congr_right exists_head?_and_iff)
    simp [withSlot_eq_faulted_iff, ifAllocated_eq_faulted_iff, ne_faultedWith, hr]
  | halt =>
    have hne : s.halt ≠ s.faultedWith K := ne_faultedWith (by simp)
    simp [exec_halt, hne, Faults]

/-! ### The instructions that raise each kind -/

/-- Settles O34: StackUnderflow is no fault of the instructions that need no cell; for the others it is the check of
their need. -/
theorem underflowIffTooFewLiveCells : Obligations.UnderflowIffTooFewLiveCells := by
  intro i s hr
  refine (exec_eq_faulted_iff hr).trans ?_
  cases i with
  | push | jmp | alloc | load | halt => simp [Faults, Instr.mnemonic, Mnemonic.stackNeed]
  | pop | print | dup | jz | jnz | store => simp [Faults, Instr.mnemonic, Mnemonic.stackNeed]
  | add | sub | mul | div | swap | eq | lt | gt => simp [Faults, Instr.mnemonic, Mnemonic.stackNeed]

/-- The instructions that push more cells than they pop, which are PUSH, DUP and LOAD, check for room. -/
theorem Effect.room_of_pops_lt_pushes {s t : State} {i : Instr} (h : Effect s t i)
    (hi : i.mnemonic.pops < i.mnemonic.pushes) : s.sp < s.cfg.stackCap := by
  cases i with
  | push =>
    obtain ⟨hroom, -⟩ := h
    exact hroom
  | dup =>
    obtain ⟨v, below, -, hroom, -⟩ := h
    exact hroom
  | load =>
    obtain ⟨-, -, -, v, -, hroom, -⟩ := h
    exact hroom
  | _ => simp [Instr.mnemonic, Mnemonic.pops, Mnemonic.pushes] at hi

/-- Settles O35: the check for room is in PUSH, DUP and LOAD, and only they push more cells than they pop. -/
theorem overflowIffPushOnAFullStack : Obligations.OverflowIffPushOnAFullStack := by
  refine fun i s hr => ⟨(exec_eq_faulted_iff hr).trans ?_, fun hfull t h ht => ?_⟩
  · cases i with
    | push => simp [Faults]
    | dup => simp [Faults, and_comm]
    | load => simp [Faults, and_assoc, and_comm, and_left_comm]
    | _ => simp [Faults]
  · have hnet := (stackUseTable i s t hr h ht).2
    have hpush := mt (effect_of_exec h ht).room_of_pops_lt_pushes hfull.not_gt
    omega

/-- Settles O36: the check of the index is in ALLOC, LOAD and STORE. -/
theorem indexFaultIffOutsideTheDeclaredSize : Obligations.IndexFaultIffOutsideTheDeclaredSize := by
  intro i s hr
  refine (exec_eq_faulted_iff hr).trans ?_
  cases i with
  | alloc | load | store => simp [Faults]
  | _ => simp [Faults]

/-- Settles O37: the check of the first popped is in DIV. -/
theorem divisionFaultIffFirstPoppedIsZero : Obligations.DivisionFaultIffFirstPoppedIsZero := by
  intro i s hr
  refine (exec_eq_faulted_iff hr).trans ?_
  cases i with
  | div => simp [Faults]
  | _ => simp [Faults]

/-- Settles O38: the check of the target is in JMP, and in JZ and JNZ where they are taken. -/
theorem targetFaultIffTakenJumpLeavesTheProgram : Obligations.TargetFaultIffTakenJumpLeavesTheProgram := by
  intro i s hr
  refine (exec_eq_faulted_iff hr).trans ?_
  cases i with
  | jmp | jz | jnz => simp [Faults, and_comm]
  | _ => simp [Faults]

/-- Settles O39: the check of the flag is in LOAD and STORE. -/
theorem unallocatedFaultIffFlagClear : Obligations.UnallocatedFaultIffFlagClear := by
  intro i s hr
  refine (exec_eq_faulted_iff hr).trans ?_
  cases i with
  | load | store => simp [Faults, and_assoc, and_comm, and_left_comm]
  | _ => simp [Faults]

end Sys2Proof.Machine
end
